-- ==== Sys2Proof/Word.lean ====
section
/-! DEFINITION. The machine's scalar units: the Word and the byte (00_scope.md R7; 10_state.md R20). -/

namespace Sys2Proof

/-- A Word: 32 bits, the width of a lane, of an address, of `ip`, of `sp`, of a stack slot and of an
instruction (00_scope.md R6, `WORD_BITS` = `ILEN_BITS` = 32). -/
abbrev Word := BitVec 32

/-- One byte of memory (20_memory.md R50). -/
abbrev Byte := BitVec 8

end Sys2Proof
end

