-- ==== Sys2Proof/Config.lean ====
section
/-! DEFINITION. What is fixed for the machine: the sizes of 00_scope.md R6, and the values that
`State.reset` takes for the arguments the spec leaves to the host. The parameters a test could show
wrong (`OPC_*`, `ALU_*`, `OFFSET_SIGNED`, `BRANCH_TEST_USES_MASK`) stand beside the definitions that
read them, in Decode.lean, Machine/Operands.lean and Machine/Flags.lean. The machine leaves no value
free (70_reset_and_hazards.md R296), so there is no opaque constant. -/

namespace Sys2Proof.Config

/-- `LANES`: lanes per register and bits of the mask register (00_scope.md R6). -/
abbrev lanes : Nat := 256

/-- `NREG`: general registers (00_scope.md R6). -/
abbrev nreg : Nat := 14

/-- The largest `MEM_LEN` (20_memory.md R50): every address a Word can name. -/
abbrev maxMemLen : Nat := 2 ^ 32

/-- `VLEN_RESET` (00_scope.md R6; 10_state.md R44). -/
def vlenReset : BitVec 8 := 0

/-- DESIGN CHOICE (log entry 1, unsafe): the `MEM_LEN` of the reset state. The spec leaves it OPEN, so
it is a field of the memory and every statement is about any length. -/
def resetMemLen : Nat := maxMemLen

/-- DESIGN CHOICE (log entry 2, unsafe): the `STACK_TOP` of the reset state; the spec gives none. -/
def resetStackTop : Word := 0xFFFFFFFC

/-- DESIGN CHOICE (log entry 3, unsafe): what a byte of memory that is not listed reads as. The spec
gives the initial memory no value (20_memory.md R52). -/
def unlistedByte : Byte := 0

end Sys2Proof.Config
end

