-- ==== Sys2Proof/Syntax.lean ====
section
/-! DEFINITION. The instructions: one constructor per row of spec/opcode_table.json, with the fields
the spec's `Decode` gives the row (30_encoding.md R99). -/

namespace Sys2Proof

/-- A register name: `R00` to `R13`, or one of the pseudo-registers `RF` and `RT`, which have no
storage (10_state.md R22, R23). -/
inductive Reg where
  | gpr (n : Fin Config.nreg)
  | rf
  | rt
deriving DecidableEq, Repr

/-- The register has storage: it is not a pseudo-register (10_state.md R23). -/
def Reg.backed : Reg → Bool
  | .gpr _ => true
  | .rf => false
  | .rt => false

/-- The operands of `arith` (43_arith.md R170). `rem` and `negateRem` act for `DIV` only (R172). -/
structure ArithOperands where
  dst : Reg
  lhs : Reg
  rhs : Reg
  rem : Reg
  negateDst : Bool
  negateLhs : Bool
  negateRhs : Bool
  negateRem : Bool
deriving DecidableEq, Repr

/-- The fields of an `arith` word whose `op` names no operation: the operands and `horizontal`, which its
row leaves open (30_encoding.md R99; 43_arith.md R173). -/
structure UnknownArith where
  operands : ArithOperands
  horizontal : Bool
deriving DecidableEq, Repr

/-- The instructions, each with the fields `Decode` gives it (30_encoding.md R99): an `arith` word that executes
as a fault among them; a word with tag 9 to 15 the word. -/
inductive Instr where
  | vlenset (value : BitVec 8)
  | maskset (src : Reg)
  | memoryLoad (reg ptr : Reg) (bytesCount : BitVec 2)
  | memoryStore (reg ptr : Reg) (bytesCount : BitVec 2)
  | copyLower (dst : Reg) (value : BitVec 16)
  | copyUpper (dst : Reg) (value : BitVec 16)
  | arithAdd (o : ArithOperands)
  | arithSub (o : ArithOperands)
  | arithMul (o : ArithOperands)
  | arithDiv (o : ArithOperands)
  | arithAnd (o : ArithOperands)
  | arithXor (o : ArithOperands)
  | jz (flag : Reg) (offset : BitVec 16)
  | bz (flag : Reg) (saveIp : Bool) (offset : BitVec 16)
  | ret
  | inter (number : BitVec 16)
  | illegalArithHorizontalOp0 (o : ArithOperands)
  | illegalArithHorizontalOp1 (o : ArithOperands)
  | illegalArithHorizontalOp2 (o : ArithOperands)
  | illegalArithHorizontalOp3 (o : ArithOperands)
  | illegalArithHorizontalOp4 (o : ArithOperands)
  | illegalArithHorizontalOp5 (o : ArithOperands)
  | illegalArithOp6 (u : UnknownArith)
  | illegalArithOp7 (u : UnknownArith)
  | illegalTag9 (insn : Word)
  | illegalTag10 (insn : Word)
  | illegalTag11 (insn : Word)
  | illegalTag12 (insn : Word)
  | illegalTag13 (insn : Word)
  | illegalTag14 (insn : Word)
  | illegalTag15 (insn : Word)
deriving DecidableEq, Repr

end Sys2Proof
end

