-- ==== Sys2Proof/WellFormed.lean ====
section
/-! DEFINITION. The opcode table, one row per constructor, and well-formedness: an instruction that
keeps a whole word keeps a word of its own row. Every other field admits each value its type has
(30_encoding.md R94, R95). -/

namespace Sys2Proof

/-- One row of spec/opcode_table.json: a word `w` selects the row when `w &&& mask = pattern`, and the
bits of `ignored` have no effect on what it does (INDEX.md, conventions). -/
structure OpcodeRow where
  mnemonic : String
  mask : Word
  pattern : Word
  ignored : Word
deriving DecidableEq, Repr

/-- The opcode table's row of each instruction. -/
def Instr.row : Instr → OpcodeRow
  | .vlenset _ => ⟨"vlenset", 0x0000000F, 0x00000000, 0xFFFFF000⟩
  | .maskset _ => ⟨"maskset", 0x0000000F, 0x00000001, 0xFFFFFF00⟩
  | .memoryLoad _ _ _ => ⟨"memory.load", 0x0002000F, 0x00000002, 0xFFF1F000⟩
  | .memoryStore _ _ _ => ⟨"memory.store", 0x0002000F, 0x00020002, 0xFFF1F000⟩
  | .copyLower _ _ => ⟨"copy.lower", 0x0000080F, 0x00000003, 0xF0000700⟩
  | .copyUpper _ _ => ⟨"copy.upper", 0x0000080F, 0x00000803, 0xF0000700⟩
  | .arithAdd _ => ⟨"arith.ADD", 0x0F00000F, 0x00000004, 0xF0000000⟩
  | .arithSub _ => ⟨"arith.SUB", 0x0F00000F, 0x02000004, 0xF0000000⟩
  | .arithMul _ => ⟨"arith.MUL", 0x0F00000F, 0x04000004, 0xF0000000⟩
  | .arithDiv _ => ⟨"arith.DIV", 0x0F00000F, 0x06000004, 0xF0000000⟩
  | .arithAnd _ => ⟨"arith.AND", 0x0F00000F, 0x08000004, 0xF0000000⟩
  | .arithXor _ => ⟨"arith.XOR", 0x0F00000F, 0x0A000004, 0xF0000000⟩
  | .jz _ _ => ⟨"jz", 0x0000000F, 0x00000005, 0xF0000F00⟩
  | .bz _ _ _ => ⟨"bz", 0x0000000F, 0x00000006, 0xF0000700⟩
  | .ret => ⟨"ret", 0x0000000F, 0x00000007, 0xFFFFFFF0⟩
  | .inter _ => ⟨"inter", 0x0000000F, 0x00000008, 0xFFF00000⟩
  | .illegalArithHorizontalOp0 _ => ⟨"illegal.arith_horizontal_op0", 0x0F00000F, 0x01000004, 0xF0000000⟩
  | .illegalArithHorizontalOp1 _ => ⟨"illegal.arith_horizontal_op1", 0x0F00000F, 0x03000004, 0xF0000000⟩
  | .illegalArithHorizontalOp2 _ => ⟨"illegal.arith_horizontal_op2", 0x0F00000F, 0x05000004, 0xF0000000⟩
  | .illegalArithHorizontalOp3 _ => ⟨"illegal.arith_horizontal_op3", 0x0F00000F, 0x07000004, 0xF0000000⟩
  | .illegalArithHorizontalOp4 _ => ⟨"illegal.arith_horizontal_op4", 0x0F00000F, 0x09000004, 0xF0000000⟩
  | .illegalArithHorizontalOp5 _ => ⟨"illegal.arith_horizontal_op5", 0x0F00000F, 0x0B000004, 0xF0000000⟩
  | .illegalArithOp6 _ => ⟨"illegal.arith_op6", 0x0E00000F, 0x0C000004, 0xF0000000⟩
  | .illegalArithOp7 _ => ⟨"illegal.arith_op7", 0x0E00000F, 0x0E000004, 0xF0000000⟩
  | .illegalTag9 _ => ⟨"illegal.tag9", 0x0000000F, 0x00000009, 0xFFFFFFF0⟩
  | .illegalTag10 _ => ⟨"illegal.tag10", 0x0000000F, 0x0000000A, 0xFFFFFFF0⟩
  | .illegalTag11 _ => ⟨"illegal.tag11", 0x0000000F, 0x0000000B, 0xFFFFFFF0⟩
  | .illegalTag12 _ => ⟨"illegal.tag12", 0x0000000F, 0x0000000C, 0xFFFFFFF0⟩
  | .illegalTag13 _ => ⟨"illegal.tag13", 0x0000000F, 0x0000000D, 0xFFFFFFF0⟩
  | .illegalTag14 _ => ⟨"illegal.tag14", 0x0000000F, 0x0000000E, 0xFFFFFFF0⟩
  | .illegalTag15 _ => ⟨"illegal.tag15", 0x0000000F, 0x0000000F, 0xFFFFFFF0⟩

/-- The whole word an instruction keeps: that of a word with tag 9 to 15, and no other (30_encoding.md
R99). -/
def Instr.keptWord : Instr → Option Word
  | .vlenset _ | .maskset _ | .memoryLoad _ _ _ | .memoryStore _ _ _ => none
  | .copyLower _ _ | .copyUpper _ _ => none
  | .arithAdd _ | .arithSub _ | .arithMul _ | .arithDiv _ | .arithAnd _ | .arithXor _ => none
  | .jz _ _ | .bz _ _ _ | .ret | .inter _ => none
  | .illegalArithHorizontalOp0 _ | .illegalArithHorizontalOp1 _ | .illegalArithHorizontalOp2 _ => none
  | .illegalArithHorizontalOp3 _ | .illegalArithHorizontalOp4 _ | .illegalArithHorizontalOp5 _ => none
  | .illegalArithOp6 _ | .illegalArithOp7 _ => none
  | .illegalTag9 w | .illegalTag10 w | .illegalTag11 w | .illegalTag12 w => some w
  | .illegalTag13 w | .illegalTag14 w | .illegalTag15 w => some w

/-- `w` selects the row `r`. -/
def OpcodeRow.selects (r : OpcodeRow) (w : Word) : Bool :=
  w &&& r.mask == r.pattern

/-- Well-formedness: a kept word is a word of the instruction's own row. -/
def Instr.wf (i : Instr) : Bool :=
  match i.keptWord with
  | some w => i.row.selects w
  | none => true

end Sys2Proof
end

