-- ==== Sys2Proof/Decode.lean ====
section
/-! DEFINITION. The decoder, total on words and on byte lists (30_encoding.md R99), and the encoder
(R100); the bit-field and byte-order helpers they and the memory share; `decodeTableWord`. -/

namespace Sys2Proof

/-! ### Bit fields and byte order -/

/-- `w[lo+n-1 : lo]`, the field of width `n` whose lowest bit is `lo` (00_scope.md R7). -/
def bits (lo n : Nat) (w : Word) : BitVec n :=
  w.extractLsb' lo n

/-- The one-bit field `w[k]`. -/
def bit (k : Nat) (w : Word) : Bool :=
  w.getLsbD k

/-- The word whose field at `lo` holds `v` and whose other bits are 0. -/
def field {n : Nat} (lo : Nat) (v : BitVec n) : Word :=
  v.setWidth 32 <<< lo

/-- The word whose bit `k` is `b` and whose other bits are 0. -/
def flagField (k : Nat) (b : Bool) : Word :=
  field k (BitVec.ofBool b)

/-- Little-endian assembly: the byte at the lowest address is the least significant, the bits above
the last byte are 0 (20_memory.md R54). -/
def leWord : List Byte → Word
  | [] => 0
  | b :: bs => b.setWidth 32 ||| (leWord bs <<< 8)

/-- The low `n` bytes of `v`, least significant first (20_memory.md R55). -/
def leBytes : Nat → Word → List Byte
  | 0, _ => []
  | n + 1, v => v.setWidth 8 :: leBytes n (v >>> 8)

/-! ### The named encoding parameters (30_encoding.md R90, R91; the spec's D4, D5) -/

def opcVlenset : BitVec 4 := 0
def opcMaskset : BitVec 4 := 1
def opcMemory : BitVec 4 := 2
def opcCopy : BitVec 4 := 3
def opcArith : BitVec 4 := 4
def opcJz : BitVec 4 := 5
def opcBz : BitVec 4 := 6
def opcRet : BitVec 4 := 7
def opcInter : BitVec 4 := 8

def aluAdd : BitVec 3 := 0
def aluSub : BitVec 3 := 1
def aluMul : BitVec 3 := 2
def aluDiv : BitVec 3 := 3
def aluAnd : BitVec 3 := 4
def aluXor : BitVec 3 := 5

/-! ### Register names (30_encoding.md R94; 10_state.md R23) -/

/-- The register a 4-bit name stands for: `0x0` to `0xD` general, `0xE` `RF`, `0xF` `RT`. -/
def regOfBits (b : BitVec 4) : Reg :=
  if h : b.toNat < Config.nreg then .gpr ⟨b.toNat, h⟩
  else if b = 0xE then .rf
  else .rt

/-- The 4-bit name of a register. -/
def regBits : Reg → BitVec 4
  | .gpr n => BitVec.ofNat 4 n.val
  | .rf => 0xE
  | .rt => 0xF

/-- The register named by the 4-bit field at `lo`. -/
def regAt (lo : Nat) (w : Word) : Reg :=
  regOfBits (bits lo 4 w)

/-! ### Decoding -/

/-- The tag `insn[3:0]` (30_encoding.md R81). -/
def tagOf (w : Word) : BitVec 4 :=
  bits 0 4 w

/-- The `op` field of `arith` (30_encoding.md R87). -/
def opOf (w : Word) : BitVec 3 :=
  bits 25 3 w

/-- The `horizontal` field of `arith` (30_encoding.md R87). -/
def horizontalOf (w : Word) : Bool :=
  bit 24 w

/-- The operand fields of `arith` (30_encoding.md R87). -/
def arithOperandsOf (w : Word) : ArithOperands where
  dst := regAt 4 w
  lhs := regAt 8 w
  rhs := regAt 12 w
  rem := regAt 16 w
  negateDst := bit 20 w
  negateLhs := bit 21 w
  negateRhs := bit 22 w
  negateRem := bit 23 w

/-- The `arith` words: the six operations, their `horizontal` forms, and `op` 6 and 7, which name no
operation whatever `horizontal` is (30_encoding.md R91, R96; 43_arith.md R171). -/
def decodeArith (w : Word) : Instr :=
  let op := opOf w
  let h := horizontalOf w
  let o := arithOperandsOf w
  if op = aluAdd then (if h then .illegalArithHorizontalOp0 o else .arithAdd o)
  else if op = aluSub then (if h then .illegalArithHorizontalOp1 o else .arithSub o)
  else if op = aluMul then (if h then .illegalArithHorizontalOp2 o else .arithMul o)
  else if op = aluDiv then (if h then .illegalArithHorizontalOp3 o else .arithDiv o)
  else if op = aluAnd then (if h then .illegalArithHorizontalOp4 o else .arithAnd o)
  else if op = aluXor then (if h then .illegalArithHorizontalOp5 o else .arithXor o)
  else if op = 6 then .illegalArithOp6 ⟨o, h⟩
  else .illegalArithOp7 ⟨o, h⟩

/-- The words whose tag names no instruction (30_encoding.md R90, R96). -/
def decodeUnknown (w : Word) : Instr :=
  let t := tagOf w
  if t = 9 then .illegalTag9 w
  else if t = 10 then .illegalTag10 w
  else if t = 11 then .illegalTag11 w
  else if t = 12 then .illegalTag12 w
  else if t = 13 then .illegalTag13 w
  else if t = 14 then .illegalTag14 w
  else .illegalTag15 w

/-- `Decode(insn)` (30_encoding.md R99, formats R83 to R93): total, every 32-bit word is an
instruction; `pad` and unused bits are not read (R97). -/
def decode (w : Word) : Instr :=
  let t := tagOf w
  if t = opcVlenset then .vlenset (bits 4 8 w)
  else if t = opcMaskset then .maskset (regAt 4 w)
  else if t = opcMemory then
    if bit 17 w then .memoryStore (regAt 4 w) (regAt 8 w) (bits 18 2 w)
    else .memoryLoad (regAt 4 w) (regAt 8 w) (bits 18 2 w)
  else if t = opcCopy then
    if bit 11 w then .copyUpper (regAt 4 w) (bits 12 16 w)
    else .copyLower (regAt 4 w) (bits 12 16 w)
  else if t = opcArith then decodeArith w
  else if t = opcJz then .jz (regAt 4 w) (bits 12 16 w)
  else if t = opcBz then .bz (regAt 4 w) (bit 11 w) (bits 12 16 w)
  else if t = opcRet then .ret
  else if t = opcInter then .inter (bits 4 16 w)
  else decodeUnknown w

/-- Why a byte list gives no instruction: the only reason there is (30_encoding.md R96, R99). -/
inductive DecodeError where
  /-- fewer than the four bytes of an instruction word (R82) -/
  | truncated
deriving DecidableEq, Repr

/-- The instruction at the head of a byte list, lowest address first (30_encoding.md R82), and the
bytes after it. -/
def decodeBytes : List Byte → Except DecodeError (Instr × List Byte)
  | b0 :: b1 :: b2 :: b3 :: rest => .ok (decode (leWord [b0, b1, b2, b3]), rest)
  | _ => .error .truncated

/-- The host's reading of an opcode-table word: the four bytes the hardware stores it as, least
significant first (30_encoding.md R82), given to the decoder. Bits above `nbits` are 0. -/
def decodeTableWord (nbits w : Nat) : Option Instr :=
  match decodeBytes (leBytes 4 (BitVec.ofNat 32 (w % 2 ^ nbits))) with
  | .ok (i, _) => some i
  | .error _ => none

/-! ### Encoding -/

/-- `Encode(Arith …)` (30_encoding.md R87, R100). -/
def encodeArith (op : BitVec 3) (horizontal : Bool) (o : ArithOperands) : Word :=
  field 0 opcArith ||| field 4 (regBits o.dst) ||| field 8 (regBits o.lhs) ||| field 12 (regBits o.rhs)
    ||| field 16 (regBits o.rem) ||| flagField 20 o.negateDst ||| flagField 21 o.negateLhs
    ||| flagField 22 o.negateRhs ||| flagField 23 o.negateRem ||| flagField 24 horizontal
    ||| field 25 op

/-- `Encode(Memory …)` (30_encoding.md R85, R100). -/
def encodeMemory (store : Bool) (reg ptr : Reg) (bytesCount : BitVec 2) : Word :=
  field 0 opcMemory ||| field 4 (regBits reg) ||| field 8 (regBits ptr) ||| flagField 17 store
    ||| field 18 bytesCount

/-- `Encode(Copy …)` (30_encoding.md R86, R100). -/
def encodeCopy (upper : Bool) (dst : Reg) (value : BitVec 16) : Word :=
  field 0 opcCopy ||| field 4 (regBits dst) ||| flagField 11 upper ||| field 12 value

/-- The canonical word of an instruction, `pad` and unused bits 0 (30_encoding.md R97, R100). A word with tag 9
to 15, for which R100 gives no encoding, is the word it keeps (R99). -/
def encode : Instr → Word
  | .vlenset value => field 0 opcVlenset ||| field 4 value
  | .maskset src => field 0 opcMaskset ||| field 4 (regBits src)
  | .memoryLoad reg ptr bc => encodeMemory false reg ptr bc
  | .memoryStore reg ptr bc => encodeMemory true reg ptr bc
  | .copyLower dst value => encodeCopy false dst value
  | .copyUpper dst value => encodeCopy true dst value
  | .arithAdd o => encodeArith aluAdd false o
  | .arithSub o => encodeArith aluSub false o
  | .arithMul o => encodeArith aluMul false o
  | .arithDiv o => encodeArith aluDiv false o
  | .arithAnd o => encodeArith aluAnd false o
  | .arithXor o => encodeArith aluXor false o
  | .jz flag offset => field 0 opcJz ||| field 4 (regBits flag) ||| field 12 offset
  | .bz flag saveIp offset =>
      field 0 opcBz ||| field 4 (regBits flag) ||| flagField 11 saveIp ||| field 12 offset
  | .ret => field 0 opcRet
  | .inter number => field 0 opcInter ||| field 4 number
  | .illegalArithHorizontalOp0 o => encodeArith aluAdd true o
  | .illegalArithHorizontalOp1 o => encodeArith aluSub true o
  | .illegalArithHorizontalOp2 o => encodeArith aluMul true o
  | .illegalArithHorizontalOp3 o => encodeArith aluDiv true o
  | .illegalArithHorizontalOp4 o => encodeArith aluAnd true o
  | .illegalArithHorizontalOp5 o => encodeArith aluXor true o
  | .illegalArithOp6 u => encodeArith 6 u.horizontal u.operands
  | .illegalArithOp7 u => encodeArith 7 u.horizontal u.operands
  | .illegalTag9 w => w
  | .illegalTag10 w => w
  | .illegalTag11 w => w
  | .illegalTag12 w => w
  | .illegalTag13 w => w
  | .illegalTag14 w => w
  | .illegalTag15 w => w

/-- The four bytes of an instruction in memory, lowest address first (30_encoding.md R82). -/
def encodeBytes (i : Instr) : List Byte :=
  leBytes 4 (encode i)

end Sys2Proof
end

