-- ==== Sys2Proof/Machine/State.lean ====
section
/-! DEFINITION. The state the spec gives the machine (10_state.md R20, 20_memory.md R50), the outcome
types, and the state after reset (10_state.md R44). -/

namespace Sys2Proof.Machine

/-- A fixed number of like things, numbered from 0: the list of them and that there are `n`. -/
structure Bank (n : Nat) (α : Type) where
  vals : List α
  size : vals.length = n
deriving DecidableEq, Repr

/-- The bank that holds `a` everywhere. -/
def Bank.fill (n : Nat) {α : Type} (a : α) : Bank n α :=
  ⟨List.replicate n a, List.length_replicate⟩

/-- What an operation may be that the machine does not support: one value
(60_exceptions.md R241, R245). -/
inductive UnsupportedFeature where
  | horizontal
deriving DecidableEq, Repr

/-- A fault cause with its information (60_exceptions.md R241). -/
inductive FaultCause where
  /-- the 4 bytes at `ip` are not all inside memory (R242) -/
  | fetchOutOfBounds (ip : Word)
  /-- a push with `sp < 4` (R243) -/
  | stackPushUnderflow (sp : Word)
  /-- a tag of 9 to 15, or `arith` with `op` 6 or 7 (R244) -/
  | unknownOpcode (insn : Word)
  /-- the 4 bytes of a push or pop pass the end of memory (R247) -/
  | stackOutOfBounds (addr : Word)
  /-- the `bytes` bytes at `addr` that active lane `lane` names pass the end of memory (R248) -/
  | memoryOutOfBounds (addr : Word) (bytes : Nat) (lane : Nat)
  /-- `arith` with `horizontal` = 1 and `op` <= 5 (R245) -/
  | unsupported (feature : UnsupportedFeature) (insn : Word)
deriving DecidableEq, Repr

/-- The numeric code of a fault cause (60_exceptions.md R241). -/
def FaultCause.code : FaultCause → Nat
  | .fetchOutOfBounds _ => 1
  | .stackPushUnderflow _ => 2
  | .unknownOpcode _ => 3
  | .stackOutOfBounds _ => 4
  | .memoryOutOfBounds _ _ _ => 5
  | .unsupported _ _ => 6

/-- The run status (10_state.md R40). -/
inductive Status where
  | running
  | faulted (cause : FaultCause)
  | hostRequest (number : BitVec 16)
deriving DecidableEq, Repr

/-- The memory: `MEM_LEN` and the bytes, as the cells that differ from `Config.unlistedByte`
(20_memory.md R50, R52). -/
structure Memory where
  len : Nat
  cells : List Host.Cell
deriving DecidableEq, Repr

/-- The addresses rise strictly. -/
def cellsRise : List Host.Cell → Bool
  | [] => true
  | [_] => true
  | c :: d :: rest => decide (c.1 < d.1) && cellsRise (d :: rest)

/-- The canonical form: `MEM_LEN` is in its range, the addresses rise strictly and are inside memory, and
no cell holds what an unlisted address reads as. -/
def Memory.wf (m : Memory) : Bool :=
  decide (m.len ≤ Config.maxMemLen) && cellsRise m.cells
    && m.cells.all fun c => decide (c.1 < m.len) && c.2 != Config.unlistedByte

/-- The machine: the core state of 10_state.md R20 and the memory beside it. -/
structure State where
  /-- `R[0..13][0..255]` (R21) -/
  regs : Bank Config.nreg (Bank Config.lanes Word)
  /-- `MASK[0..255]` (R30) -/
  mask : Bank Config.lanes Bool
  /-- the lane count minus one (R33) -/
  vlen : BitVec 8
  /-- the instruction pointer, a byte address (R35) -/
  ip : Word
  /-- the stack pointer, a byte address (R38) -/
  sp : Word
  /-- the run status (R40) -/
  status : Status
  /-- the memory lent to the core (20_memory.md R50 to R52) -/
  mem : Memory
deriving DecidableEq, Repr

/-- A fault of the interface: there is none. Every fault the spec names records itself in `status` and
keeps the state it was raised in (60_exceptions.md R246), so the machine answers a next state whose
status is `faulted`; and a core that is not running takes a step that changes nothing
(40_execution_cycle.md R124). Log entry 4; safe: the spec gives every stop its state. -/
inductive Fault where
deriving DecidableEq, Repr

/-- Why an instruction has no meaning. -/
inductive Refusal where
  /-- raised by `exec` for an instruction that is not modelled yet (no instruction is, in this model);
  safe: the model claims nothing of it -/
  | notModelled (mnemonic : String)
deriving DecidableEq, Repr

/-- `Init(stack_top)` on a machine whose memory is `mem` (10_state.md R44; 70_reset_and_hazards.md R280):
every element of the core state takes its reset value, the memory is neither read nor written. -/
def State.init (stackTop : Word) (mem : Memory) : State where
  regs := Bank.fill Config.nreg (Bank.fill Config.lanes 0)
  mask := Bank.fill Config.lanes true
  vlen := Config.vlenReset
  ip := 0
  sp := stackTop
  status := .running
  mem := mem

/-- The machine right after reset: `Init` with the arguments the spec leaves open at the values of the
log (DESIGN CHOICE, entries 1, 2, 3, unsafe). -/
def State.reset : State :=
  State.init Config.resetStackTop ⟨Config.resetMemLen, []⟩

end Sys2Proof.Machine
end

