-- ==== Sys2Proof/Machine/Ops.lean ====
section
/-! DEFINITION. The shared operations: the register and mask accessors (10_state.md R24 to R29), the two
memory primitives (20_memory.md R54, R55), `raise` (60_exceptions.md R246), fetch
(40_execution_cycle.md R122), push and pop (44_control.md R210, R211), and the vector engine
(40_execution_cycle.md R126). -/

namespace Sys2Proof.Machine

/-! ### One update per element of the state -/

def State.setRegs (s : State) (v : Bank Config.nreg (Bank Config.lanes Word)) : State :=
  { s with regs := v }
def State.setMask (s : State) (v : Bank Config.lanes Bool) : State := { s with mask := v }
def State.setVlen (s : State) (v : BitVec 8) : State := { s with vlen := v }
def State.setIp (s : State) (v : Word) : State := { s with ip := v }
def State.setSp (s : State) (v : Word) : State := { s with sp := v }
def State.setStatus (s : State) (v : Status) : State := { s with status := v }
def State.setMem (s : State) (v : Memory) : State := { s with mem := v }

/-! ### Banks -/

/-- Element `i` of a bank. -/
def Bank.get {n : Nat} {α : Type} (b : Bank n α) (i : Fin n) : α :=
  b.vals[i.val]'(b.size.symm ▸ i.isLt)

/-- The bank with element `i` replaced. -/
def Bank.set {n : Nat} {α : Type} (b : Bank n α) (i : Fin n) (a : α) : Bank n α :=
  ⟨b.vals.set i.val a, (List.length_set).trans b.size⟩

/-! ### Registers and mask -/

/-- `RegRead(r, i)` (10_state.md R24): the pseudo-registers are constants, a lane out of range reads 0. -/
def State.readReg (s : State) (r : Reg) (i : Nat) : Word :=
  match r with
  | .rf => 0
  | .rt => 0xFFFFFFFF
  | .gpr n => if h : i < Config.lanes then (s.regs.get n).get ⟨i, h⟩ else 0

/-- `RegWrite(r, i, v)` (10_state.md R25): a write to a pseudo-register or to a lane out of range is
dropped. -/
def State.writeReg (s : State) (r : Reg) (i : Nat) (v : Word) : State :=
  match r with
  | .rf => s
  | .rt => s
  | .gpr n =>
    if h : i < Config.lanes then s.setRegs (s.regs.set n ((s.regs.get n).set ⟨i, h⟩ v)) else s

/-- `MaskRead(i)` (10_state.md R28). -/
def State.readMask (s : State) (i : Nat) : Bool :=
  if h : i < Config.lanes then s.mask.get ⟨i, h⟩ else false

/-- `MaskWrite(i, b)` (10_state.md R29). -/
def State.writeMask (s : State) (i : Nat) (b : Bool) : State :=
  if h : i < Config.lanes then s.setMask (s.mask.set ⟨i, h⟩ b) else s

/-! ### Memory -/

/-- The byte the cells give address `a`. -/
def cellsByte : List Host.Cell → Nat → Byte
  | [], _ => Config.unlistedByte
  | (k, b) :: rest, a => if k = a then b else cellsByte rest a

/-- The cells with `b` at address `a`, in canonical form. -/
def cellsSet : List Host.Cell → Nat → Byte → List Host.Cell
  | [], a, b => if b = Config.unlistedByte then [] else [(a, b)]
  | (k, c) :: rest, a, b =>
    if k < a then (k, c) :: cellsSet rest a b
    else if k = a then (if b = Config.unlistedByte then rest else (a, b) :: rest)
    else if b = Config.unlistedByte then (k, c) :: rest
    else (a, b) :: (k, c) :: rest

/-- `MEM[a]`. -/
def Memory.byte (m : Memory) (a : Nat) : Byte :=
  cellsByte m.cells a

/-- `MEM[a] <- b`. -/
def Memory.setByte (m : Memory) (a : Nat) (b : Byte) : Memory :=
  { m with cells := cellsSet m.cells a b }

/-- The `n` bytes from address `a` up. -/
def Memory.bytes (m : Memory) : Nat → Nat → List Byte
  | _, 0 => []
  | a, n + 1 => m.byte a :: m.bytes (a + 1) n

/-- The bytes `bs` put from address `a` up, the lowest first. -/
def Memory.setBytes (m : Memory) : Nat → List Byte → Memory
  | _, [] => m
  | a, b :: bs => (m.setByte a b).setBytes (a + 1) bs

/-- An access of `n` bytes at `addr` is in bounds: computed without wrap-around (20_memory.md R58). -/
def Memory.inBounds (m : Memory) (addr : Word) (n : Nat) : Bool :=
  decide (addr.toNat + n ≤ m.len)

/-- `MemRead(addr, n)` (20_memory.md R54): little-endian, zero-extended; `none` when out of bounds, and
then the caller raises its own fault (R58). -/
def Memory.read (m : Memory) (addr : Word) (n : Nat) : Option Word :=
  if m.inBounds addr n then some (leWord (m.bytes addr.toNat n)) else none

/-- `MemWrite(addr, n, v)` (20_memory.md R55): the low `n` bytes of `v`; `none` when out of bounds, and
then no byte moves and the caller raises its own fault (R58). -/
def Memory.write (m : Memory) (addr : Word) (n : Nat) (v : Word) : Option Memory :=
  if m.inBounds addr n then some (m.setBytes addr.toNat (leBytes n v)) else none

/-! ### Taking a fault -/

/-- `raise C(info)` (60_exceptions.md R246): the status records the fault and nothing else changes. There
is no trap entry and no return from one (R252, R253). -/
def raise (c : FaultCause) (s : State) : State :=
  s.setStatus (.faulted c)

/-- The state an operation leaves: its own, or the state it started from with its fault raised. -/
def orRaise (s : State) : Except FaultCause State → State
  | .ok t => t
  | .error c => raise c s

/-! ### Fetch, push, pop -/

/-- `Fetch()` (40_execution_cycle.md R121, R122): the word at `ip`, and the state with `ip` advanced by 4
modulo 2^32 (10_state.md R36). -/
def fetch (s : State) : Except FaultCause (Word × State) :=
  match s.mem.read s.ip 4 with
  | some w => .ok (w, s.setIp (s.ip + 4))
  | none => .error (.fetchOutOfBounds s.ip)

/-- `Push(w)` (44_control.md R210): the check of `sp` against 4, then the bounds of the 4 bytes at
`sp - 4` (out of bounds exactly when `sp > MEM_LEN`), then the store. -/
def push (w : Word) (s : State) : Except FaultCause State :=
  if s.sp.toNat < 4 then .error (.stackPushUnderflow s.sp)
  else
    match s.mem.write (s.sp - 4) 4 w with
    | some m => .ok ((s.setSp (s.sp - 4)).setMem m)
    | none => .error (.stackOutOfBounds (s.sp - 4))

/-- `Pop()` (44_control.md R211): the word at `sp`, and the state with `sp` advanced by 4 modulo 2^32. -/
def pop (s : State) : Except FaultCause (Word × State) :=
  match s.mem.read s.sp 4 with
  | some w => .ok (w, s.setSp (s.sp + 4))
  | none => .error (.stackOutOfBounds s.sp)

/-! ### The vector engine -/

/-- Lane `i` is enabled: `i <= vlen` (00_scope.md R15; 90_conflicts.md C2). -/
def State.laneEnabled (s : State) (i : Nat) : Bool :=
  decide (i ≤ s.vlen.toNat)

/-- Lane `i` is active: enabled and its mask bit set (00_scope.md R15; 90_conflicts.md C2). -/
def State.laneActive (s : State) (i : Nat) : Bool :=
  s.laneEnabled i && s.readMask i

/-- The enabled lanes in ascending order: `0 ..= vlen` (00_scope.md R10). -/
def State.enabledLanes (s : State) : List Nat :=
  List.range (s.vlen.toNat + 1)

/-- The lanes one after another; a lane whose mask bit is clear is passed over; a fault in a lane ends the
loop and keeps what earlier lanes did (40_execution_cycle.md R126, R127, R131). -/
def runLanes (body : Nat → State → Except FaultCause State) : List Nat → State → State
  | [], s => s
  | i :: rest, s =>
    if s.readMask i then
      match body i s with
      | .ok t => runLanes body rest t
      | .error c => raise c s
    else runLanes body rest s

/-- `ForActiveLanes(body)` (40_execution_cycle.md R126): the lanes are those `vlen` enables when the loop
starts (41_vlenset_maskset.md R141). -/
def forActiveLanes (body : Nat → State → Except FaultCause State) (s : State) : State :=
  runLanes body s.enabledLanes s

end Sys2Proof.Machine
end

