-- ==== Sys2Proof/Machine/Operands.lean ====
section
/-! DEFINITION. The operand forms: complemented register operands (43_arith.md R171, R186), the
register-indirect address and biased size of `memory` (42_memory_copy.md R150, R153), the half-word
immediates of `copy` (R155, R156), and the branch offset (44_control.md R201). There is no other
(30_encoding.md R94, R95). -/

namespace Sys2Proof.Machine

/-- A value, complemented if its flag is set (43_arith.md R171). -/
def complementIf (negate : Bool) (v : Word) : Word :=
  if negate then ~~~v else v

/-- An operand of `arith` in lane `i`: the register's value, complemented if its flag is set; the
register is not changed (43_arith.md R186). -/
def operand (r : Reg) (negate : Bool) (i : Nat) (s : State) : Word :=
  complementIf negate (s.readReg r i)

/-- The size of a `memory` transfer: the stored value `n` means `n + 1` bytes (42_memory_copy.md R153). -/
def transferBytes (bytesCount : BitVec 2) : Nat :=
  bytesCount.toNat + 1

/-- The effective address of `memory` in lane `i`: the lane of `ptr`, no displacement and no scaling
(42_memory_copy.md R150). -/
def effectiveAddress (ptr : Reg) (i : Nat) (s : State) : Word :=
  s.readReg ptr i

/-- A lane with its low half replaced (42_memory_copy.md R155). -/
def withLowerHalf (old : Word) (value : BitVec 16) : Word :=
  (old &&& 0xFFFF0000) ||| value.setWidth 32

/-- A lane with its high half replaced (42_memory_copy.md R156). -/
def withUpperHalf (old : Word) (value : BitVec 16) : Word :=
  (value.setWidth 32 <<< 16) ||| (old &&& 0x0000FFFF)

/-- `OFFSET_SIGNED` (00_scope.md R6; the spec's decision D8). -/
def offsetSigned : Bool := true

/-- A branch offset as a Word: sign-extended, or with `OFFSET_SIGNED` false zero-extended; a count of
bytes, not scaled (44_control.md R201). -/
def branchOffset (signed : Bool) (offset : BitVec 16) : Word :=
  if signed then offset.signExtend 32 else offset.setWidth 32

/-- The target of a taken branch from the already advanced `ip` (44_control.md R201). -/
def branchTarget (offset : BitVec 16) (s : State) : Word :=
  s.ip + branchOffset offsetSigned offset

end Sys2Proof.Machine
end

