-- ==== Sys2Proof/Machine/Flags.lean ====
section
/-! DEFINITION. The conditions. The machine has no status flags and no condition codes (10_state.md R32);
what takes their place is the truth value of a lane (41_vlenset_maskset.md R142) and the zero test of
`jz` and `bz` (44_control.md R202). -/

namespace Sys2Proof.Machine

/-- The truth value of a lane: any Word but 0 is true (41_vlenset_maskset.md R142). -/
def laneTruth (v : Word) : Bool :=
  v != 0

/-- `BRANCH_TEST_USES_MASK` (00_scope.md R6; the spec's decision D13). -/
def branchTestUsesMask : Bool := true

/-- `ZeroTest(flag)` with the parameter `BRANCH_TEST_USES_MASK` (44_control.md R202): every tested lane of
`flag` reads as zero. -/
def zeroTestWith (usesMask : Bool) (flag : Reg) (s : State) : Bool :=
  s.enabledLanes.all fun i => (usesMask && !s.readMask i) || !laneTruth (s.readReg flag i)

/-- `ZeroTest(flag)` (44_control.md R202). -/
def zeroTest (flag : Reg) (s : State) : Bool :=
  zeroTestWith branchTestUsesMask flag s

end Sys2Proof.Machine
end

