-- ==== Sys2Proof/Machine/Arith.lean ====
section
/-! DEFINITION. `arith` (43_arith.md): the unit's six operations, one lane of the instruction, and the six
meanings. No operation faults and none records a flag (R182, R171). -/

namespace Sys2Proof.Machine

/-- What the unit returns: the primary result, and a remainder for `DIV` only (R171, R172). -/
structure AluResult where
  primary : Word
  remainder : Option Word
deriving DecidableEq, Repr

/-- `ADD` (R176): modulo 2^32. -/
def addResult (a b : Word) : AluResult := ⟨a + b, none⟩

/-- `SUB` (R177): modulo 2^32. -/
def subResult (a b : Word) : AluResult := ⟨a - b, none⟩

/-- `MUL` (R178): the low 32 bits of the product. -/
def mulResult (a b : Word) : AluResult := ⟨a * b, none⟩

/-- `DIV` (R179): unsigned; division by zero gives quotient 0 and remainder 0. -/
def divResult (a b : Word) : AluResult :=
  if b = 0 then ⟨0, some 0⟩ else ⟨a / b, some (a % b)⟩

/-- `AND` (R180). -/
def andResult (a b : Word) : AluResult := ⟨a &&& b, none⟩

/-- `XOR` (R181). -/
def xorResult (a b : Word) : AluResult := ⟨a ^^^ b, none⟩

/-- The writes of one lane: the primary result to `dst`, then the remainder, if there is one, to `rem`
(R171, R175). -/
def writeResult (o : ArithOperands) (i : Nat) (x : AluResult) (s : State) : State :=
  let t := s.writeReg o.dst i (complementIf o.negateDst x.primary)
  match x.remainder with
  | none => t
  | some r => t.writeReg o.rem i (complementIf o.negateRem r)

/-- One lane of `arith` (R171): both operand reads come before both writes. -/
def arithLane (alu : Word → Word → AluResult) (o : ArithOperands) (i : Nat) (s : State) :
    Except FaultCause State :=
  .ok (writeResult o i (alu (operand o.lhs o.negateLhs i s) (operand o.rhs o.negateRhs i s)) s)

/-- `arith … ADD` (R171, R176). -/
def execArithAdd (o : ArithOperands) (s : State) : Host.Outcome State Fault Refusal :=
  .next (forActiveLanes (arithLane addResult o) s)

/-- `arith … SUB` (R171, R177). -/
def execArithSub (o : ArithOperands) (s : State) : Host.Outcome State Fault Refusal :=
  .next (forActiveLanes (arithLane subResult o) s)

/-- `arith … MUL` (R171, R178). -/
def execArithMul (o : ArithOperands) (s : State) : Host.Outcome State Fault Refusal :=
  .next (forActiveLanes (arithLane mulResult o) s)

/-- `arith … DIV` (R171, R179). -/
def execArithDiv (o : ArithOperands) (s : State) : Host.Outcome State Fault Refusal :=
  .next (forActiveLanes (arithLane divResult o) s)

/-- `arith … AND` (R171, R180). -/
def execArithAnd (o : ArithOperands) (s : State) : Host.Outcome State Fault Refusal :=
  .next (forActiveLanes (arithLane andResult o) s)

/-- `arith … XOR` (R171, R181). -/
def execArithXor (o : ArithOperands) (s : State) : Host.Outcome State Fault Refusal :=
  .next (forActiveLanes (arithLane xorResult o) s)

end Sys2Proof.Machine
end

