-- ==== Sys2Proof/Machine/Control.lean ====
section
/-! DEFINITION. `jz`, `bz`, `ret` (44_control.md). Targets are not checked: the next fetch judges them
(R209). -/

namespace Sys2Proof.Machine

/-- `ip <- (ip + offset) mod 2^32` (R201). -/
def takeBranch (offset : BitVec 16) (s : State) : State :=
  s.setIp (branchTarget offset s)

/-- A taken `bz` with `save_ip` = 1 (R204): push the address of the next instruction, then branch; a push
that faults leaves `ip`, `sp` and memory as they were. -/
def callBranch (offset : BitVec 16) (s : State) : Except FaultCause State :=
  match push s.ip s with
  | .ok t => .ok (takeBranch offset t)
  | .error c => .error c

/-- `jz flag, offset` (R203). -/
def execJz (flag : Reg) (offset : BitVec 16) (s : State) : Host.Outcome State Fault Refusal :=
  .next (if zeroTest flag s then takeBranch offset s else s)

/-- `bz flag, offset, save_ip` (R204). -/
def execBz (flag : Reg) (saveIp : Bool) (offset : BitVec 16) (s : State) :
    Host.Outcome State Fault Refusal :=
  .next
    (if zeroTest flag s then
      if saveIp then orRaise s (callBranch offset s) else takeBranch offset s
    else s)

/-- `ip <- Pop()` (R205). -/
def returnBranch (s : State) : Except FaultCause State :=
  match pop s with
  | .ok (w, t) => .ok (t.setIp w)
  | .error c => .error c

/-- `ret` (R205). -/
def execRet (s : State) : Host.Outcome State Fault Refusal :=
  .next (orRaise s (returnBranch s))

end Sys2Proof.Machine
end

