-- ==== Sys2Proof/Machine/Illegal.lean ====
section
/-! DEFINITION. The words that execute as a fault (30_encoding.md R96): each raises its fault before any
state but `ip`, which the fetch advanced, has changed (40_execution_cycle.md R125). A meaning is given the
decoded instruction, so the `insn` it records is the instruction's canonical word; Execute.lean puts the word
it was given there (log entry 5). -/

namespace Sys2Proof.Machine

/-- `raise UnknownOpcode(insn)` (60_exceptions.md R244). -/
def raiseUnknownOpcode (insn : Word) (s : State) : Host.Outcome State Fault Refusal :=
  .next (raise (.unknownOpcode insn) s)

/-- `raise Unsupported(HORIZONTAL, insn)` (60_exceptions.md R245; 43_arith.md R174). -/
def raiseHorizontal (insn : Word) (s : State) : Host.Outcome State Fault Refusal :=
  .next (raise (.unsupported .horizontal insn) s)

/-- `arith` with `op` = 0 and `horizontal` = 1 (43_arith.md R174). -/
def execIllegalArithHorizontalOp0 (o : ArithOperands) (s : State) : Host.Outcome State Fault Refusal :=
  raiseHorizontal (encodeArith aluAdd true o) s

/-- `arith` with `op` = 1 and `horizontal` = 1 (43_arith.md R174). -/
def execIllegalArithHorizontalOp1 (o : ArithOperands) (s : State) : Host.Outcome State Fault Refusal :=
  raiseHorizontal (encodeArith aluSub true o) s

/-- `arith` with `op` = 2 and `horizontal` = 1 (43_arith.md R174). -/
def execIllegalArithHorizontalOp2 (o : ArithOperands) (s : State) : Host.Outcome State Fault Refusal :=
  raiseHorizontal (encodeArith aluMul true o) s

/-- `arith` with `op` = 3 and `horizontal` = 1 (43_arith.md R174). -/
def execIllegalArithHorizontalOp3 (o : ArithOperands) (s : State) : Host.Outcome State Fault Refusal :=
  raiseHorizontal (encodeArith aluDiv true o) s

/-- `arith` with `op` = 4 and `horizontal` = 1 (43_arith.md R174). -/
def execIllegalArithHorizontalOp4 (o : ArithOperands) (s : State) : Host.Outcome State Fault Refusal :=
  raiseHorizontal (encodeArith aluAnd true o) s

/-- `arith` with `op` = 5 and `horizontal` = 1 (43_arith.md R174). -/
def execIllegalArithHorizontalOp5 (o : ArithOperands) (s : State) : Host.Outcome State Fault Refusal :=
  raiseHorizontal (encodeArith aluXor true o) s

/-- `arith` with `op` = 6, whatever `horizontal` is (43_arith.md R173; 60_exceptions.md R251). -/
def execIllegalArithOp6 (u : UnknownArith) (s : State) : Host.Outcome State Fault Refusal :=
  raiseUnknownOpcode (encodeArith 6 u.horizontal u.operands) s

/-- `arith` with `op` = 7, whatever `horizontal` is (43_arith.md R173; 60_exceptions.md R251). -/
def execIllegalArithOp7 (u : UnknownArith) (s : State) : Host.Outcome State Fault Refusal :=
  raiseUnknownOpcode (encodeArith 7 u.horizontal u.operands) s

/-- A word with tag 9 (60_exceptions.md R244). -/
def execIllegalTag9 (insn : Word) (s : State) : Host.Outcome State Fault Refusal :=
  raiseUnknownOpcode insn s

/-- A word with tag 10 (60_exceptions.md R244). -/
def execIllegalTag10 (insn : Word) (s : State) : Host.Outcome State Fault Refusal :=
  raiseUnknownOpcode insn s

/-- A word with tag 11 (60_exceptions.md R244). -/
def execIllegalTag11 (insn : Word) (s : State) : Host.Outcome State Fault Refusal :=
  raiseUnknownOpcode insn s

/-- A word with tag 12 (60_exceptions.md R244). -/
def execIllegalTag12 (insn : Word) (s : State) : Host.Outcome State Fault Refusal :=
  raiseUnknownOpcode insn s

/-- A word with tag 13 (60_exceptions.md R244). -/
def execIllegalTag13 (insn : Word) (s : State) : Host.Outcome State Fault Refusal :=
  raiseUnknownOpcode insn s

/-- A word with tag 14 (60_exceptions.md R244). -/
def execIllegalTag14 (insn : Word) (s : State) : Host.Outcome State Fault Refusal :=
  raiseUnknownOpcode insn s

/-- A word with tag 15 (60_exceptions.md R244). -/
def execIllegalTag15 (insn : Word) (s : State) : Host.Outcome State Fault Refusal :=
  raiseUnknownOpcode insn s

end Sys2Proof.Machine
end

