-- ==== Sys2Proof/Machine/Inter.lean ====
section
/-! DEFINITION. `inter` (45_inter.md). -/

namespace Sys2Proof.Machine

/-- `inter number` (R230): the core stops with a request to the host; nothing else changes. -/
def execInter (number : BitVec 16) (s : State) : Host.Outcome State Fault Refusal :=
  .next (s.setStatus (.hostRequest number))

end Sys2Proof.Machine
end

