-- ==== Sys2Proof/Machine/MemoryCopy.lean ====
section
/-! DEFINITION. `memory` (load and store) and `copy` (42_memory_copy.md). -/

namespace Sys2Proof.Machine

/-- One lane of a load (R150): address, bounds, the zero-extended value, the register write. A load into
`RF` or `RT` still makes its access. -/
def loadLane (reg ptr : Reg) (n : Nat) (i : Nat) (s : State) : Except FaultCause State :=
  match s.mem.read (effectiveAddress ptr i s) n with
  | some v => .ok (s.writeReg reg i v)
  | none => .error (.memoryOutOfBounds (effectiveAddress ptr i s) n i)

/-- One lane of a store (R151): address, bounds, the low `n` bytes of the lane. -/
def storeLane (reg ptr : Reg) (n : Nat) (i : Nat) (s : State) : Except FaultCause State :=
  match s.mem.write (effectiveAddress ptr i s) n (s.readReg reg i) with
  | some m => .ok (s.setMem m)
  | none => .error (.memoryOutOfBounds (effectiveAddress ptr i s) n i)

/-- `memory reg, ptr, 0, bytes_count` (R150). -/
def execMemoryLoad (reg ptr : Reg) (bytesCount : BitVec 2) (s : State) :
    Host.Outcome State Fault Refusal :=
  .next (forActiveLanes (loadLane reg ptr (transferBytes bytesCount)) s)

/-- `memory reg, ptr, 1, bytes_count` (R151). -/
def execMemoryStore (reg ptr : Reg) (bytesCount : BitVec 2) (s : State) :
    Host.Outcome State Fault Refusal :=
  .next (forActiveLanes (storeLane reg ptr (transferBytes bytesCount)) s)

/-- One lane of a copy (R154): the lane is read, one half replaced, and written back. -/
def copyLane (half : Word → BitVec 16 → Word) (dst : Reg) (value : BitVec 16) (i : Nat) (s : State) :
    Except FaultCause State :=
  .ok (s.writeReg dst i (half (s.readReg dst i) value))

/-- `copy dst, 0, value` (R155). -/
def execCopyLower (dst : Reg) (value : BitVec 16) (s : State) : Host.Outcome State Fault Refusal :=
  .next (forActiveLanes (copyLane withLowerHalf dst value) s)

/-- `copy dst, 1, value` (R156). -/
def execCopyUpper (dst : Reg) (value : BitVec 16) (s : State) : Host.Outcome State Fault Refusal :=
  .next (forActiveLanes (copyLane withUpperHalf dst value) s)

end Sys2Proof.Machine
end

