-- ==== Sys2Proof/Machine/VectorConfig.lean ====
section
/-! DEFINITION. `vlenset` and `maskset` (41_vlenset_maskset.md). Every meaning is run on the state the
fetch left: `ip` is already the address of the next instruction (44_control.md R200). -/

namespace Sys2Proof.Machine

/-- `vlenset value` (R140). -/
def execVlenset (value : BitVec 8) (s : State) : Host.Outcome State Fault Refusal :=
  .next (s.setVlen value)

/-- Every enabled lane's mask bit becomes the truth value of `src` in that lane; the old mask plays no
part (R142). -/
def maskLanes (src : Reg) : List Nat → State → State
  | [], s => s
  | i :: rest, s => maskLanes src rest (s.writeMask i (laneTruth (s.readReg src i)))

/-- `maskset src` (R142). -/
def execMaskset (src : Reg) (s : State) : Host.Outcome State Fault Refusal :=
  .next (maskLanes src s.enabledLanes s)

end Sys2Proof.Machine
end

