-- ==== Sys2Proof/Machine/Dispatch.lean ====
section
/-! DEFINITION. `Execute`'s dispatch (40_execution_cycle.md R123): one arm per instruction, exactly one
runs. -/

namespace Sys2Proof.Machine

def exec (i : Instr) (s : State) : Host.Outcome State Fault Refusal :=
  match i with
  | .vlenset value => Sys2Proof.Machine.execVlenset value s
  | .maskset src => Sys2Proof.Machine.execMaskset src s
  | .memoryLoad reg ptr bytesCount => Sys2Proof.Machine.execMemoryLoad reg ptr bytesCount s
  | .memoryStore reg ptr bytesCount => Sys2Proof.Machine.execMemoryStore reg ptr bytesCount s
  | .copyLower dst value => Sys2Proof.Machine.execCopyLower dst value s
  | .copyUpper dst value => Sys2Proof.Machine.execCopyUpper dst value s
  | .arithAdd o => Sys2Proof.Machine.execArithAdd o s
  | .arithSub o => Sys2Proof.Machine.execArithSub o s
  | .arithMul o => Sys2Proof.Machine.execArithMul o s
  | .arithDiv o => Sys2Proof.Machine.execArithDiv o s
  | .arithAnd o => Sys2Proof.Machine.execArithAnd o s
  | .arithXor o => Sys2Proof.Machine.execArithXor o s
  | .jz flag offset => Sys2Proof.Machine.execJz flag offset s
  | .bz flag saveIp offset => Sys2Proof.Machine.execBz flag saveIp offset s
  | .ret => Sys2Proof.Machine.execRet s
  | .inter number => Sys2Proof.Machine.execInter number s
  | .illegalArithHorizontalOp0 o => Sys2Proof.Machine.execIllegalArithHorizontalOp0 o s
  | .illegalArithHorizontalOp1 o => Sys2Proof.Machine.execIllegalArithHorizontalOp1 o s
  | .illegalArithHorizontalOp2 o => Sys2Proof.Machine.execIllegalArithHorizontalOp2 o s
  | .illegalArithHorizontalOp3 o => Sys2Proof.Machine.execIllegalArithHorizontalOp3 o s
  | .illegalArithHorizontalOp4 o => Sys2Proof.Machine.execIllegalArithHorizontalOp4 o s
  | .illegalArithHorizontalOp5 o => Sys2Proof.Machine.execIllegalArithHorizontalOp5 o s
  | .illegalArithOp6 u => Sys2Proof.Machine.execIllegalArithOp6 u s
  | .illegalArithOp7 u => Sys2Proof.Machine.execIllegalArithOp7 u s
  | .illegalTag9 insn => Sys2Proof.Machine.execIllegalTag9 insn s
  | .illegalTag10 insn => Sys2Proof.Machine.execIllegalTag10 insn s
  | .illegalTag11 insn => Sys2Proof.Machine.execIllegalTag11 insn s
  | .illegalTag12 insn => Sys2Proof.Machine.execIllegalTag12 insn s
  | .illegalTag13 insn => Sys2Proof.Machine.execIllegalTag13 insn s
  | .illegalTag14 insn => Sys2Proof.Machine.execIllegalTag14 insn s
  | .illegalTag15 insn => Sys2Proof.Machine.execIllegalTag15 insn s

end Sys2Proof.Machine
end

