-- ==== Sys2Proof/Machine/Execute.lean ====
section
/-! DEFINITION. `Execute(insn)` (40_execution_cycle.md R123): the decoded instruction's meaning, and in the
fault it raises, where the cause records `insn`, the word itself (60_exceptions.md R241; log entry 5). -/

namespace Sys2Proof.Machine

/-- The cause with `insn` in it, where it is one that records the instruction word (60_exceptions.md R241). -/
def FaultCause.ofWord (insn : Word) : FaultCause → FaultCause
  | .fetchOutOfBounds ip => .fetchOutOfBounds ip
  | .stackPushUnderflow sp => .stackPushUnderflow sp
  | .unknownOpcode _ => .unknownOpcode insn
  | .stackOutOfBounds addr => .stackOutOfBounds addr
  | .memoryOutOfBounds addr bytes lane => .memoryOutOfBounds addr bytes lane
  | .unsupported feature _ => .unsupported feature insn

/-- The status with `insn` as the word a fault records. -/
def Status.ofWord (insn : Word) : Status → Status
  | .running => .running
  | .faulted cause => .faulted (cause.ofWord insn)
  | .hostRequest number => .hostRequest number

/-- `Execute(insn)` on a running core: `insn` is the whole word, ignored bits included (00_scope.md R11), which
the decoded instruction does not hold (30_encoding.md R97). -/
def execute (insn : Word) (s : State) : Host.Outcome State Fault Refusal :=
  match exec (decode insn) s with
  | .next t => .next (t.setStatus (t.status.ofWord insn))
  | .fault r => .fault r
  | .refused r => .refused r

end Sys2Proof.Machine
end

