-- ==== Sys2Proof/Machine/HostOps.lean ====
section
/-! DEFINITION. The operations the host may invoke between steps (70_reset_and_hazards.md R284): `Init`,
`Fetch`, `Execute`, `Push`, `Pop`, `Resume`, and the writes of memory and `ip`. `Step` is Step.lean's.
What a host reads it reads from the state itself (R290). -/

namespace Sys2Proof.Machine

/-- The core may take a step (10_state.md R40). -/
def State.isRunning (s : State) : Bool :=
  match s.status with
  | .running => true
  | .faulted _ => false
  | .hostRequest _ => false

/-- A fault raised by a host operation: once FAULTED, only `Init` changes the status (10_state.md R41;
log entry 7). -/
def hostRaise (c : FaultCause) (s : State) : State :=
  match s.status with
  | .running => raise c s
  | .faulted _ => s
  | .hostRequest _ => raise c s

/-- `Init(stack_top)`, at any time between steps (10_state.md R44, R46). -/
def hostInit (stackTop : Word) (s : State) : State :=
  State.init stackTop s.mem

/-- `Fetch()` by the host: the word, or none where the core is not running or the fetch faults
(70_reset_and_hazards.md R288). -/
def hostFetch (s : State) : Option Word × State :=
  if s.isRunning then
    match fetch s with
    | .ok (w, t) => (some w, t)
    | .error c => (none, raise c s)
  else (none, s)

/-- `Execute(insn)` by the host on any word, fetched or not (70_reset_and_hazards.md R288). -/
def hostExecute (insn : Word) (s : State) : Host.Outcome State Fault Refusal :=
  if s.isRunning then execute insn s else .next s

/-- `Push(w)` by the host (70_reset_and_hazards.md R289). -/
def hostPush (w : Word) (s : State) : State :=
  match push w s with
  | .ok t => t
  | .error c => hostRaise c s

/-- `Pop()` by the host (70_reset_and_hazards.md R289): the popped word, or none where it faults. -/
def hostPop (s : State) : Option Word × State :=
  match pop s with
  | .ok (w, t) => (some w, t)
  | .error c => (none, hostRaise c s)

/-- `Resume()` (70_reset_and_hazards.md R291): clears a host request and nothing else. -/
def hostResume (s : State) : State :=
  match s.status with
  | .running => s
  | .faulted _ => s
  | .hostRequest _ => s.setStatus .running

/-- A host write of one memory byte (70_reset_and_hazards.md R290); there is no byte outside memory to
write (20_memory.md R50; log entry 10). -/
def hostWriteByte (a : Nat) (b : Byte) (s : State) : State :=
  if a < s.mem.len then s.setMem (s.mem.setByte a b) else s

/-- A host write of `ip` (70_reset_and_hazards.md R290). -/
def hostSetIp (a : Word) (s : State) : State :=
  s.setIp a

end Sys2Proof.Machine
end

