-- ==== Sys2Proof/Machine/Place.lean ====
section
/-! DEFINITION. Putting an instruction word where the next step fetches it: what `State.withFetchWord`
calls (log entry 8). -/

namespace Sys2Proof.Machine

/-- The state made fetchable: running, and with the 4 bytes at `ip` inside memory. Where they are not,
`ip` becomes 0 and the memory holds at least 4 bytes. -/
def makeFetchable (s : State) : State :=
  let t := s.setStatus .running
  if t.mem.inBounds t.ip 4 then t
  else (t.setIp 0).setMem { t.mem with len := max t.mem.len 4 }

/-- The word `w` at `ip`, little-endian (30_encoding.md R82). -/
def placeWord (w : Word) (s : State) : State :=
  let t := makeFetchable s
  t.setMem (t.mem.setBytes t.ip.toNat (leBytes 4 w))

end Sys2Proof.Machine
end

