-- ==== Sys2Proof/Machine/Step.lean ====
section
/-! DEFINITION. One step of the core (40_execution_cycle.md R120, R125) and the placing of the word it
fetches next. -/

namespace Sys2Proof.Machine

/-- `s` with the instruction whose bits are `w` (those above `nbits` zero) where the next step fetches. -/
def State.withFetchWord (s : State) (nbits w : Nat) : State :=
  placeWord (BitVec.ofNat 32 (w % 2 ^ nbits)) s

/-- `Step()` (40_execution_cycle.md R120): a core that is not running does nothing (R124); a fetch that is
out of bounds raises its fault (R121); else the fetched word is executed with `ip` already advanced. -/
def step (s : State) : Host.Outcome State Fault Refusal :=
  match s.status with
  | .running =>
    match fetch s with
    | .ok (w, t) => execute w t
    | .error c => .next (raise c s)
  | .faulted _ => .next s
  | .hostRequest _ => .next s

end Sys2Proof.Machine
end

