-- ==== Sys2Proof/Safety.lean ====
section
/-! DEFINITION. The terms claims use: what two states have in common, which instructions work lane by lane
and which registers they may write, and the invariant of a run: the memory is in canonical form, and a
core that has stopped says truly why. -/

namespace Sys2Proof.Machine

/-! ### What two states have in common -/

/-- Every register name reads the same in every lane. -/
def SameRegs (s t : State) : Prop := ∀ r i, t.readReg r i = s.readReg r i

/-- Every mask bit reads the same. -/
def SameMask (s t : State) : Prop := ∀ i, t.readMask i = s.readMask i

/-- The memory has the same length and every byte reads the same. -/
def SameMem (s t : State) : Prop := t.mem.len = s.mem.len ∧ ∀ a, t.mem.byte a = s.mem.byte a

/-- Nothing but the registers differs. -/
def SameOutsideRegs (s t : State) : Prop :=
  SameMask s t ∧ t.vlen = s.vlen ∧ t.ip = s.ip ∧ t.sp = s.sp ∧ t.status = s.status ∧ SameMem s t

/-- Nothing but the mask register differs. -/
def SameOutsideMask (s t : State) : Prop :=
  SameRegs s t ∧ t.vlen = s.vlen ∧ t.ip = s.ip ∧ t.sp = s.sp ∧ t.status = s.status ∧ SameMem s t

/-- Nothing but `vlen` differs. -/
def SameOutsideVlen (s t : State) : Prop :=
  SameRegs s t ∧ SameMask s t ∧ t.ip = s.ip ∧ t.sp = s.sp ∧ t.status = s.status ∧ SameMem s t

/-- Nothing but `ip` differs. -/
def SameOutsideIp (s t : State) : Prop :=
  SameRegs s t ∧ SameMask s t ∧ t.vlen = s.vlen ∧ t.sp = s.sp ∧ t.status = s.status ∧ SameMem s t

/-- Nothing but the bytes of memory differs; its length does not. -/
def SameOutsideMem (s t : State) : Prop :=
  SameRegs s t ∧ SameMask s t ∧ t.vlen = s.vlen ∧ t.ip = s.ip ∧ t.sp = s.sp ∧ t.status = s.status
    ∧ t.mem.len = s.mem.len

/-- Nothing but `status` differs. -/
def SameOutsideStatus (s t : State) : Prop :=
  SameRegs s t ∧ SameMask s t ∧ t.vlen = s.vlen ∧ t.ip = s.ip ∧ t.sp = s.sp ∧ SameMem s t

/-- Nothing differs. -/
def SameState (s t : State) : Prop :=
  SameOutsideStatus s t ∧ t.status = s.status

/-! ### Instructions -/

/-- The instructions executed through the vector engine (40_execution_cycle.md R128). -/
def vectorized : Instr → Bool
  | .memoryLoad _ _ _ | .memoryStore _ _ _ | .copyLower _ _ | .copyUpper _ _ => true
  | .arithAdd _ | .arithSub _ | .arithMul _ | .arithDiv _ | .arithAnd _ | .arithXor _ => true
  | .vlenset _ | .maskset _ | .jz _ _ | .bz _ _ _ | .ret | .inter _ => false
  | .illegalArithHorizontalOp0 _ | .illegalArithHorizontalOp1 _ | .illegalArithHorizontalOp2 _ => false
  | .illegalArithHorizontalOp3 _ | .illegalArithHorizontalOp4 _ | .illegalArithHorizontalOp5 _ => false
  | .illegalArithOp6 _ | .illegalArithOp7 _ => false
  | .illegalTag9 _ | .illegalTag10 _ | .illegalTag11 _ | .illegalTag12 _ => false
  | .illegalTag13 _ | .illegalTag14 _ | .illegalTag15 _ => false

/-- The registers an instruction names as destinations (10_state.md R27). -/
def destinations : Instr → List Reg
  | .memoryLoad reg _ _ => [reg]
  | .copyLower dst _ | .copyUpper dst _ => [dst]
  | .arithAdd o | .arithSub o | .arithMul o | .arithAnd o | .arithXor o => [o.dst]
  | .arithDiv o => [o.dst, o.rem]
  | .memoryStore _ _ _ | .vlenset _ | .maskset _ | .jz _ _ | .bz _ _ _ | .ret | .inter _ => []
  | .illegalArithHorizontalOp0 _ | .illegalArithHorizontalOp1 _ | .illegalArithHorizontalOp2 _ => []
  | .illegalArithHorizontalOp3 _ | .illegalArithHorizontalOp4 _ | .illegalArithHorizontalOp5 _ => []
  | .illegalArithOp6 _ | .illegalArithOp7 _ => []
  | .illegalTag9 _ | .illegalTag10 _ | .illegalTag11 _ | .illegalTag12 _ => []
  | .illegalTag13 _ | .illegalTag14 _ | .illegalTag15 _ => []

/-- The words that execute as a fault (30_encoding.md R96): their fault records the instruction word. -/
def executesAsFault : Instr → Bool
  | .vlenset _ | .maskset _ | .memoryLoad _ _ _ | .memoryStore _ _ _ | .copyLower _ _ | .copyUpper _ _ => false
  | .arithAdd _ | .arithSub _ | .arithMul _ | .arithDiv _ | .arithAnd _ | .arithXor _ => false
  | .jz _ _ | .bz _ _ _ | .ret | .inter _ => false
  | .illegalArithHorizontalOp0 _ | .illegalArithHorizontalOp1 _ | .illegalArithHorizontalOp2 _ => true
  | .illegalArithHorizontalOp3 _ | .illegalArithHorizontalOp4 _ | .illegalArithHorizontalOp5 _ => true
  | .illegalArithOp6 _ | .illegalArithOp7 _ => true
  | .illegalTag9 _ | .illegalTag10 _ | .illegalTag11 _ | .illegalTag12 _ => true
  | .illegalTag13 _ | .illegalTag14 _ | .illegalTag15 _ => true

/-- The access a `memory` instruction makes in each active lane: the register its address is in, and the
number of bytes (42_memory_copy.md R150, R151, R153). No other vectorized instruction makes one. -/
def memoryAccess : Instr → Option (Reg × Nat)
  | .memoryLoad _ ptr bytesCount | .memoryStore _ ptr bytesCount => some (ptr, bytesCount.toNat + 1)
  | .vlenset _ | .maskset _ | .copyLower _ _ | .copyUpper _ _ => none
  | .arithAdd _ | .arithSub _ | .arithMul _ | .arithDiv _ | .arithAnd _ | .arithXor _ => none
  | .jz _ _ | .bz _ _ _ | .ret | .inter _ => none
  | .illegalArithHorizontalOp0 _ | .illegalArithHorizontalOp1 _ | .illegalArithHorizontalOp2 _ => none
  | .illegalArithHorizontalOp3 _ | .illegalArithHorizontalOp4 _ | .illegalArithHorizontalOp5 _ => none
  | .illegalArithOp6 _ | .illegalArithOp7 _ => none
  | .illegalTag9 _ | .illegalTag10 _ | .illegalTag11 _ | .illegalTag12 _ => none
  | .illegalTag13 _ | .illegalTag14 _ | .illegalTag15 _ => none

/-- The words with tag 9 to 15, one constructor each. -/
def unknownTagForms : List (Word → Instr) :=
  [.illegalTag9, .illegalTag10, .illegalTag11, .illegalTag12, .illegalTag13, .illegalTag14, .illegalTag15]

/-- The `arith` words with `op` 6 or 7, one constructor each. -/
def unknownOpForms : List (UnknownArith → Instr) := [.illegalArithOp6, .illegalArithOp7]

/-- The `arith` words with `op` <= 5 and `horizontal` = 1, one constructor each. -/
def horizontalForms : List (ArithOperands → Instr) :=
  [.illegalArithHorizontalOp0, .illegalArithHorizontalOp1, .illegalArithHorizontalOp2,
    .illegalArithHorizontalOp3, .illegalArithHorizontalOp4, .illegalArithHorizontalOp5]

/-- Every active lane of `flag` reads as zero: what the zero test of `jz` and `bz` asks
(44_control.md R202). -/
def ActiveLanesZero (flag : Reg) (s : State) : Prop :=
  ∀ i, s.laneActive i = true → s.readReg flag i = 0

/-- Every active lane's access of `n` bytes through `ptr` is in bounds (20_memory.md R58). -/
def ActiveLanesInBounds (ptr : Reg) (n : Nat) (s : State) : Prop :=
  ∀ i, s.laneActive i = true → (s.readReg ptr i).toNat + n ≤ s.mem.len

/-- Lane `i`'s access of `n` bytes through `ptr` reaches address `a`. -/
def LaneReaches (ptr : Reg) (n : Nat) (s : State) (i a : Nat) : Prop :=
  (s.readReg ptr i).toNat ≤ a ∧ a < (s.readReg ptr i).toNat + n

/-- `i` completes, from every state, and leaves in every active lane of `o.dst`, where it has storage,
`f` of the two operands, each of the three complemented if its flag is set; no other register lane changes
and nothing but the registers does (43_arith.md R171, R172). -/
def WritesDstOnly (i : Instr) (o : ArithOperands) (f : Word → Word → Word) : Prop :=
  ∀ s, ∃ t, exec i s = .next t ∧ SameOutsideRegs s t
    ∧ ∀ r j, t.readReg r j
        = if r = o.dst ∧ o.dst.backed = true ∧ s.laneActive j = true
          then complementIf o.negateDst
            (f (complementIf o.negateLhs (s.readReg o.lhs j)) (complementIf o.negateRhs (s.readReg o.rhs j)))
          else s.readReg r j

/-! ### The invariant of a run -/

/-- `w` is the word at `ip - 4`: the instruction a stopped core stopped at (60_exceptions.md R252). -/
def StoppedAt (s : State) (w : Word) : Prop := s.mem.read (s.ip - 4) 4 = some w

/-- The status says truly why the core stopped (60_exceptions.md R241, R242 to R248, R252; 45_inter.md
R230). A store may have overwritten the word that faulted, so `memoryOutOfBounds` says nothing of it, but that
the address is what the faulting lane, which is active, holds in some register. -/
def StatusTrue (s : State) : Prop :=
  match s.status with
  | .running => True
  | .hostRequest n => ∃ w, StoppedAt s w ∧ decode w = .inter n
  | .faulted (.fetchOutOfBounds a) => a = s.ip ∧ s.mem.len < s.ip.toNat + 4
  | .faulted (.stackPushUnderflow a) =>
      a = s.sp ∧ s.sp.toNat < 4 ∧ ∃ w flag offset, StoppedAt s w ∧ decode w = .bz flag true offset
  | .faulted (.unknownOpcode w) =>
      StoppedAt s w ∧ (9 ≤ (tagOf w).toNat ∨ (tagOf w = opcArith ∧ 6 ≤ (opOf w).toNat))
  | .faulted (.stackOutOfBounds a) =>
      (a = s.sp - 4 ∧ 4 ≤ s.sp.toNat ∧ s.mem.len < s.sp.toNat
          ∧ ∃ w flag offset, StoppedAt s w ∧ decode w = .bz flag true offset)
        ∨ (a = s.sp ∧ s.mem.len < s.sp.toNat + 4 ∧ ∃ w, StoppedAt s w ∧ decode w = .ret)
  | .faulted (.memoryOutOfBounds a n i) =>
      1 ≤ n ∧ n ≤ 4 ∧ s.laneActive i = true ∧ s.mem.len < a.toNat + n ∧ ∃ ptr, s.readReg ptr i = a
  | .faulted (.unsupported .horizontal w) =>
      StoppedAt s w ∧ tagOf w = opcArith ∧ (opOf w).toNat ≤ 5 ∧ horizontalOf w = true

/-- The invariant of a run. -/
def Inv (s : State) : Prop := s.mem.wf = true ∧ StatusTrue s

end Sys2Proof.Machine
end

