-- ==== Sys2Proof/Certificates/Slice0/Obligations.lean ====
section
/-! DEFINITION. The statements. `bits (8 * k) 8 w` is byte `k` of the Word `w`, least significant first.
The meanings run on the state the fetch left, so `s.ip` is the address of the instruction after the one
that runs (44_control.md R200). -/

open Sys2Proof Sys2Proof.Machine

/-! ### Decoding and encoding -/

/-- Words written out from the encodings of 30_encoding.md R83 to R93 and the vectors of
95_test_vectors.md decode to the instructions they stand for. -/
def Obligations.WrittenOutWordsDecode : Prop :=
  decode 0xFFFFF030 = .vlenset 3
    ∧ decode 0x000000F1 = .maskset .rt
    ∧ decode 0x000C0012 = .memoryLoad (.gpr 1) (.gpr 0) 3
    ∧ decode 0x00020012 = .memoryStore (.gpr 1) (.gpr 0) 0
    ∧ decode 0x01234003 = .copyLower (.gpr 0) 0x1234
    ∧ decode 0x0DEAD803 = .copyUpper (.gpr 0) 0xDEAD
    ∧ decode 0x06931024 = .arithDiv ⟨.gpr 2, .gpr 0, .gpr 1, .gpr 3, true, false, false, true⟩
    ∧ decode 0x020E0E24 = .arithSub ⟨.gpr 2, .rf, .gpr 0, .rf, false, false, false, false⟩
    ∧ decode 0x0FFF4015 = .jz (.gpr 1) 0xFFF4
    ∧ decode 0x000108E6 = .bz .rf true 16
    ∧ decode 0xFFFFFFF7 = .ret
    ∧ decode 0x00012348 = .inter 0x1234
    ∧ decode 0x0D0E1024 = .illegalArithOp6 ⟨⟨.gpr 2, .gpr 0, .gpr 1, .rf, false, false, false, false⟩, true⟩
    ∧ decode 0xF10E1024 = .illegalArithHorizontalOp0 ⟨.gpr 2, .gpr 0, .gpr 1, .rf, false, false, false, false⟩
    ∧ decode 0xFFFFFFFF = .illegalTag15 0xFFFFFFFF

/-- Decoding an encoded well-formed instruction gives it back, from a word and from the head of a byte list
(30_encoding.md R99, R100). -/
def Obligations.DecodeOfEncodeIsTheInstruction : Prop :=
  ∀ i : Instr, i.wf = true →
    decode (encode i) = i ∧ ∀ rest, decodeBytes (encodeBytes i ++ rest) = .ok (i, rest)

/-- Every word decodes to a well-formed instruction, whose encoding is the word with the ignored bits of its
row cleared (30_encoding.md R97, R100), or, for a word with tag 9 to 15, which `Decode` keeps whole (R99), the
word. -/
def Obligations.EncodeOfDecodeIsTheCanonicalWord : Prop :=
  ∀ w : Word, (decode w).wf = true
    ∧ encode (decode w)
        = if (decode w).keptWord.isSome then w else w &&& ~~~(decode w).row.ignored

/-- Every word selects the opcode-table row of the instruction it decodes to, and no other row
(INDEX.md, conventions of opcode_table.json). -/
def Obligations.EveryWordSelectsOneRow : Prop :=
  ∀ w : Word, (decode w).row.selects w = true
    ∧ ∀ i : Instr, i.row.selects w = true → i.row = (decode w).row

/-- Words with a tag of 0 to 8 which differ only in the ignored bits of their row are the same instruction,
the rows that execute as a fault among them (30_encoding.md R97, the spec's decision D9); a word with another
tag `Decode` keeps whole (R99). -/
def Obligations.IgnoredBitsDoNotMatter : Prop :=
  ∀ v w : Word, (decode v).keptWord = none →
    v &&& ~~~(decode v).row.ignored = w &&& ~~~(decode v).row.ignored → decode w = decode v

/-- The byte decoder takes four bytes, lowest address first, refuses fewer by name, and the table reading
is the decoder's (30_encoding.md R82, R99; the byte order is the spec's decision D6). -/
def Obligations.ByteDecoderIsTotal : Prop :=
  (∀ bs : List Byte, bs.length < 4 → decodeBytes bs = .error .truncated)
    ∧ (∀ (w : Word) (rest : List Byte), decodeBytes (leBytes 4 w ++ rest) = .ok (decode w, rest))
    ∧ ∀ w : Nat, w < 2 ^ 32 → decodeTableWord 32 w = some (decode (BitVec.ofNat 32 w))

/-! ### Reset and the step -/

/-- `Init(stack_top)` gives every element of the core state its reset value and leaves the memory alone, and
the reset state is one that `Init` gives (10_state.md R44; `vlen` 0 and the status are the spec's decisions
D10 and D17). -/
def Obligations.InitGivesTheResetValues : Prop :=
  (∀ (top : Word) (s : State),
    (hostInit top s).vlen = 0 ∧ (hostInit top s).ip = 0 ∧ (hostInit top s).sp = top
      ∧ (∀ i, i < 256 → (hostInit top s).readMask i = true)
      ∧ (∀ n i, (hostInit top s).readReg (.gpr n) i = 0)
      ∧ (hostInit top s).status = .running ∧ (hostInit top s).mem = s.mem)
    ∧ ∃ top, State.reset = hostInit top State.reset

/-- The first instruction after `Init` is the word at addresses 0 to 3 (10_state.md R45), read as every fetch
reads (40_execution_cycle.md R122; the byte order is the spec's decision D6, log entry 9), and runs with `ip` at
4. -/
def Obligations.ResetVectorIsAddressZero : Prop :=
  ∀ (top : Word) (s : State) (w : Word), 4 ≤ s.mem.len →
    (∀ k, k < 4 → bits (8 * k) 8 w = s.mem.byte k) →
    step (hostInit top s) = execute w ((hostInit top s).setIp 4)

/-- A step: a core that is not running does nothing (the spec's decision D17, log entry 4); a fetch that does not
lie inside memory raises `FetchOutOfBounds(ip)` and changes nothing else (the spec's decision D19 where it
straddles the end); otherwise the step is `Execute` of the word at `ip` (the byte order is the spec's decision
D6), with `ip` advanced by 4 modulo 2^32, which for a word that does not execute as a fault is `exec` of the decoded
instruction (40_execution_cycle.md R120, R122; D6 and D19: log entry 9). Words that execute as a fault:
ExecuteRecordsTheWord. -/
def Obligations.StepFetchesThenExecutes : Prop :=
  (∀ s : State, s.isRunning = false → step s = .next s)
    ∧ (∀ s : State, s.isRunning = true → s.mem.len < s.ip.toNat + 4 →
        ∃ t, step s = .next t ∧ t.status = .faulted (.fetchOutOfBounds s.ip) ∧ SameOutsideStatus s t)
    ∧ ∀ (s : State) (w : Word), s.isRunning = true → s.ip.toNat + 4 ≤ s.mem.len →
        (∀ k, k < 4 → bits (8 * k) 8 w = s.mem.byte (s.ip.toNat + k)) →
        step s = execute w (s.setIp (BitVec.ofNat 32 (s.ip.toNat + 4)))
          ∧ (executesAsFault (decode w) = false →
              step s = exec (decode w) (s.setIp (BitVec.ofNat 32 (s.ip.toNat + 4))))

/-- A core that has stopped takes no step, however often it is stepped (40_execution_cycle.md R124, the
spec's decision D17). -/
def Obligations.StoppedCoreStaysStopped : Prop :=
  ∀ (n : Nat) (s : State), s.isRunning = false → Sys2Proof.core.run n s = .next s

/-- From every state, reached or not, a step answers a next state: no instruction, operand, flag or fault
stops the machine's rules (70_reset_and_hazards.md R296; that a fault is a next state is log entry 4). -/
def Obligations.EveryStepAnswersANextState : Prop :=
  ∀ s : State, ∃ t, step s = .next t

/-- The placing the host uses does what its interface asks: the very next step executes exactly the placed word
(the model's choice, log entry 8), which for a word that does not execute as a fault is `exec` of its decoding. -/
def Obligations.PlacedWordRunsNext : Prop :=
  ∀ (s : State) (w : Nat), s.mem.wf = true → w < 2 ^ 32 →
    step (s.withFetchWord 32 w)
        = execute (BitVec.ofNat 32 w) ((s.withFetchWord 32 w).setIp ((s.withFetchWord 32 w).ip + 4))
      ∧ (executesAsFault (decode (BitVec.ofNat 32 w)) = false →
          step (s.withFetchWord 32 w)
            = exec (decode (BitVec.ofNat 32 w))
                ((s.withFetchWord 32 w).setIp ((s.withFetchWord 32 w).ip + 4)))

/-- The invariant holds at reset (the reset memory and stack top are the model's choice, log entries 1
to 3). -/
def Obligations.ResetMeetsTheInvariant : Prop :=
  Inv State.reset

/-- Every step keeps the invariant: the memory stays in canonical form, and a core that stops records truly why:
of an `inter` its number; of a fetch, the address that could not be fetched; of a push or pop, the address and that
it passes its bound, and which instruction made it; of an unknown or unsupported word, the word; of `memory`, an
active lane and an address which that lane holds in some register and from which the recorded number of bytes
passes the end of memory (60_exceptions.md R241, R252; that the record is state is the spec's decision D17). -/
def Obligations.StepKeepsTheInvariant : Prop :=
  ∀ s t : State, Inv s → step s = .next t → Inv t

/-! ### The accessors and the memory primitives -/

/-- `RegRead` and `RegWrite` (10_state.md R24, R25): the pseudo-registers are constants whatever is written,
a lane out of range reads 0 and drops its write, a backed lane reads what is stored, and a write changes
exactly one lane of one register and nothing else. -/
def Obligations.RegisterAccess : Prop :=
  (∀ (s : State) (i : Nat), s.readReg .rf i = 0 ∧ s.readReg .rt i = 0xFFFFFFFF)
    ∧ (∀ (s : State) (n : Fin 14) (i : Nat), 256 ≤ i → s.readReg (.gpr n) i = 0)
    ∧ (∀ (s : State) (n : Fin 14) (i : Fin 256), s.readReg (.gpr n) i = (s.regs.get n).get i)
    ∧ (∀ (s : State) (i : Nat) (v : Word), s.writeReg .rf i v = s ∧ s.writeReg .rt i v = s)
    ∧ (∀ (s : State) (n : Fin 14) (i : Nat) (v : Word), 256 ≤ i → s.writeReg (.gpr n) i v = s)
    ∧ ∀ (s : State) (n : Fin 14) (i : Nat) (v : Word), i < 256 →
        SameOutsideRegs s (s.writeReg (.gpr n) i v)
          ∧ (s.writeReg (.gpr n) i v).readReg (.gpr n) i = v
          ∧ ∀ r j, (r ≠ .gpr n ∨ j ≠ i) → (s.writeReg (.gpr n) i v).readReg r j = s.readReg r j

/-- `MaskRead` and `MaskWrite` (10_state.md R28, R29): a bit out of range reads false and drops its write. -/
def Obligations.MaskAccess : Prop :=
  (∀ (s : State) (i : Nat), 256 ≤ i → s.readMask i = false)
    ∧ (∀ (s : State) (i : Fin 256), s.readMask i = s.mask.get i)
    ∧ (∀ (s : State) (i : Nat) (b : Bool), 256 ≤ i → s.writeMask i b = s)
    ∧ ∀ (s : State) (i : Nat) (b : Bool), i < 256 →
        SameOutsideMask s (s.writeMask i b) ∧ (s.writeMask i b).readMask i = b
          ∧ ∀ j, j ≠ i → (s.writeMask i b).readMask j = s.readMask j

/-- `MemRead(addr, n)` (20_memory.md R54): in bounds, the `n` bytes little-endian and zero-extended; out of
bounds it answers nothing (and its caller raises its fault). -/
def Obligations.MemoryReadIsLittleEndian : Prop :=
  ∀ (m : Memory) (addr : Word) (n : Nat), 1 ≤ n → n ≤ 4 →
    (m.len < addr.toNat + n → m.read addr n = none)
      ∧ (addr.toNat + n ≤ m.len → ∃ v, m.read addr n = some v
          ∧ ∀ k, k < 4 → bits (8 * k) 8 v = if k < n then m.byte (addr.toNat + k) else 0)

/-- `MemWrite(addr, n, v)` (20_memory.md R55): in bounds, exactly the `n` bytes at `addr` change, to the low
bytes of `v` little-endian; out of bounds it answers nothing. The canonical form is kept. -/
def Obligations.MemoryWriteChangesExactlyItsBytes : Prop :=
  ∀ (m : Memory) (addr v : Word) (n : Nat), m.wf = true → 1 ≤ n → n ≤ 4 →
    (m.len < addr.toNat + n → m.write addr n v = none)
      ∧ (addr.toNat + n ≤ m.len → ∃ m', m.write addr n v = some m' ∧ m'.wf = true ∧ m'.len = m.len
          ∧ (∀ k, k < n → m'.byte (addr.toNat + k) = bits (8 * k) 8 v)
          ∧ ∀ a, (a < addr.toNat ∨ addr.toNat + n ≤ a) → m'.byte a = m.byte a)

/-- A value read with another width shows its bytes (20_memory.md R57): after a 4-byte write at `addr`, a
read of `n` bytes at `addr + k` inside those four gives bytes `k` to `k + n - 1` of the value. -/
def Obligations.MixedWidthAccessSeesTheBytes : Prop :=
  ∀ (m m' : Memory) (addr v : Word) (k n : Nat), m.wf = true → m.write addr 4 v = some m' →
    1 ≤ n → k + n ≤ 4 →
    ∃ u, m'.read (addr + BitVec.ofNat 32 k) n = some u
      ∧ ∀ j, j < 4 → bits (8 * j) 8 u = if j < n then bits (8 * (k + j)) 8 v else 0

/-! ### vlenset and maskset -/

/-- `vlenset value` (41_vlenset_maskset.md R140): for every word with its tag (a named parameter, the spec's
decision D4) the value is bits 11:4; `vlen` becomes the value, unchanged by any clamp, whatever the mask holds,
and nothing else changes. -/
def Obligations.VlensetSetsTheLaneCount : Prop :=
  (∀ w : Word, tagOf w = opcVlenset → decode w = .vlenset (bits 4 8 w))
    ∧ ∀ (value : BitVec 8) (s : State),
        ∃ t, exec (.vlenset value) s = .next t ∧ t.vlen = value ∧ SameOutsideVlen s t

/-- `maskset src` (41_vlenset_maskset.md R142): for every word with its tag (a named parameter, the spec's
decision D4) `src` is bits 7:4; every enabled lane's mask bit, whatever it was, becomes whether `src` is
non-zero in that lane, and nothing else changes. -/
def Obligations.MasksetTakesTheTruthOfEachEnabledLane : Prop :=
  (∀ w : Word, tagOf w = opcMaskset → decode w = .maskset (regOfBits (bits 4 4 w)))
    ∧ ∀ (src : Reg) (s : State),
        ∃ t, exec (.maskset src) s = .next t ∧ SameOutsideMask s t
          ∧ (∀ i, i ≤ s.vlen.toNat → (t.readMask i = true ↔ s.readReg src i ≠ 0))
          ∧ ∀ i, s.vlen.toNat < i → t.readMask i = s.readMask i

/-! ### memory and copy -/

/-- A load whose active lanes are all in bounds (42_memory_copy.md R150, R153): every active lane of `reg`,
where it has storage, is the `bytes_count + 1` bytes at that lane of `ptr`, little-endian and zero-extended;
no other register lane changes and nothing but the registers does. -/
def Obligations.LoadGathersEveryActiveLane : Prop :=
  ∀ (reg ptr : Reg) (bytesCount : BitVec 2) (s : State),
    ActiveLanesInBounds ptr (bytesCount.toNat + 1) s →
    ∃ t, exec (.memoryLoad reg ptr bytesCount) s = .next t ∧ SameOutsideRegs s t
      ∧ (∀ r i, (r ≠ reg ∨ reg.backed = false ∨ s.laneActive i = false) → t.readReg r i = s.readReg r i)
      ∧ ∀ i, reg.backed = true → s.laneActive i = true → ∀ k, k < 4 →
          bits (8 * k) 8 (t.readReg reg i)
            = if k < bytesCount.toNat + 1 then s.mem.byte ((s.readReg ptr i).toNat + k) else 0

/-- A load whose lowest out-of-bounds active lane is `k` (the bounds policy is the spec's decision D19;
40_execution_cycle.md R131, 60_exceptions.md R248): `MemoryOutOfBounds` of lane `k` is recorded, the active
lanes below `k` are loaded, nothing else changes. -/
def Obligations.LoadStopsAtTheLowestFaultingLane : Prop :=
  ∀ (reg ptr : Reg) (bytesCount : BitVec 2) (s : State) (k : Nat),
    s.laneActive k = true → s.mem.len < (s.readReg ptr k).toNat + (bytesCount.toNat + 1) →
    (∀ i, i < k → s.laneActive i = true → (s.readReg ptr i).toNat + (bytesCount.toNat + 1) ≤ s.mem.len) →
    ∃ t, exec (.memoryLoad reg ptr bytesCount) s = .next t
      ∧ t.status = .faulted (.memoryOutOfBounds (s.readReg ptr k) (bytesCount.toNat + 1) k)
      ∧ SameMask s t ∧ t.vlen = s.vlen ∧ t.ip = s.ip ∧ t.sp = s.sp ∧ SameMem s t
      ∧ (∀ r i, (r ≠ reg ∨ reg.backed = false ∨ s.laneActive i = false ∨ k ≤ i) →
          t.readReg r i = s.readReg r i)
      ∧ ∀ i, i < k → reg.backed = true → s.laneActive i = true → ∀ j, j < 4 →
          bits (8 * j) 8 (t.readReg reg i)
            = if j < bytesCount.toNat + 1 then s.mem.byte ((s.readReg ptr i).toNat + j) else 0

/-- A store whose active lanes are all in bounds (42_memory_copy.md R151, R153; 20_memory.md R64): each byte
reached by an active lane holds what the highest such lane wrote, every other byte is unchanged, and nothing
but memory changes. -/
def Obligations.StoreScattersEveryActiveLane : Prop :=
  ∀ (reg ptr : Reg) (bytesCount : BitVec 2) (s : State), s.mem.wf = true →
    ActiveLanesInBounds ptr (bytesCount.toNat + 1) s →
    ∃ t, exec (.memoryStore reg ptr bytesCount) s = .next t ∧ SameOutsideMem s t
      ∧ (∀ a i, s.laneActive i = true → LaneReaches ptr (bytesCount.toNat + 1) s i a →
          (∀ j, i < j → s.laneActive j = true → ¬ LaneReaches ptr (bytesCount.toNat + 1) s j a) →
          t.mem.byte a = bits (8 * (a - (s.readReg ptr i).toNat)) 8 (s.readReg reg i))
      ∧ ∀ a, (∀ i, s.laneActive i = true → ¬ LaneReaches ptr (bytesCount.toNat + 1) s i a) →
          t.mem.byte a = s.mem.byte a

/-- A store whose lowest out-of-bounds active lane is `k` (the spec's decision D19; 40_execution_cycle.md
R131): `MemoryOutOfBounds` of lane `k` is recorded, the stores of active lanes below `k` stay, no other byte
and nothing else changes. -/
def Obligations.StoreStopsAtTheLowestFaultingLane : Prop :=
  ∀ (reg ptr : Reg) (bytesCount : BitVec 2) (s : State) (k : Nat), s.mem.wf = true →
    s.laneActive k = true → s.mem.len < (s.readReg ptr k).toNat + (bytesCount.toNat + 1) →
    (∀ i, i < k → s.laneActive i = true → (s.readReg ptr i).toNat + (bytesCount.toNat + 1) ≤ s.mem.len) →
    ∃ t, exec (.memoryStore reg ptr bytesCount) s = .next t
      ∧ t.status = .faulted (.memoryOutOfBounds (s.readReg ptr k) (bytesCount.toNat + 1) k)
      ∧ SameRegs s t ∧ SameMask s t ∧ t.vlen = s.vlen ∧ t.ip = s.ip ∧ t.sp = s.sp
      ∧ t.mem.len = s.mem.len
      ∧ (∀ a i, i < k → s.laneActive i = true → LaneReaches ptr (bytesCount.toNat + 1) s i a →
          (∀ j, i < j → j < k → s.laneActive j = true →
            ¬ LaneReaches ptr (bytesCount.toNat + 1) s j a) →
          t.mem.byte a = bits (8 * (a - (s.readReg ptr i).toNat)) 8 (s.readReg reg i))
      ∧ ∀ a, (∀ i, i < k → s.laneActive i = true → ¬ LaneReaches ptr (bytesCount.toNat + 1) s i a) →
          t.mem.byte a = s.mem.byte a

/-- The source's round trip, lane by lane (42_memory_copy.md R152): a store, then a load of the same width
through the same address register into any register with storage, gives back the low bytes of the value
stored, in every active lane that no later active lane's store reaches; four bytes give back the Word. -/
def Obligations.StoreThenLoadReturnsTheValue : Prop :=
  ∀ (reg ptr back : Reg) (bytesCount : BitVec 2) (s : State) (i : Nat), s.mem.wf = true →
    ActiveLanesInBounds ptr (bytesCount.toNat + 1) s → back.backed = true → s.laneActive i = true →
    (∀ a j, i < j → s.laneActive j = true → LaneReaches ptr (bytesCount.toNat + 1) s i a →
      ¬ LaneReaches ptr (bytesCount.toNat + 1) s j a) →
    ∃ t u, exec (.memoryStore reg ptr bytesCount) s = .next t
      ∧ exec (.memoryLoad back ptr bytesCount) t = .next u
      ∧ (∀ k, k < 4 → bits (8 * k) 8 (u.readReg back i)
          = if k < bytesCount.toNat + 1 then bits (8 * k) 8 (s.readReg reg i) else 0)
      ∧ (bytesCount = 3 → u.readReg back i = s.readReg reg i)

/-- A `memory` store of a Word to the bytes at `ip` is what the next fetch reads (20_memory.md R67): if the last
active lane that reaches those four bytes stores a Word there, the fetch gives that Word (that fetch is
little-endian, as the store is, is the spec's decision D6, log entry 9). -/
def Obligations.NextFetchSeesTheStore : Prop :=
  ∀ (reg ptr : Reg) (s : State) (i : Nat), s.mem.wf = true → ActiveLanesInBounds ptr 4 s →
    s.laneActive i = true → s.readReg ptr i = s.ip →
    (∀ a j, i < j → s.laneActive j = true → LaneReaches ptr 4 s i a → ¬ LaneReaches ptr 4 s j a) →
    ∃ t, exec (.memoryStore reg ptr 3) s = .next t
      ∧ fetch t = .ok (s.readReg reg i, t.setIp (t.ip + 4))

/-- `copy` (42_memory_copy.md R155, R156): in every active lane of `dst`, where it has storage, the named
half is the immediate and the other half is what it was (the spec's decision D21); no other register lane
changes and nothing but the registers does. -/
def Obligations.CopyReplacesOneHalf : Prop :=
  ∀ (dst : Reg) (value : BitVec 16) (s : State),
    (∃ t, exec (.copyLower dst value) s = .next t ∧ SameOutsideRegs s t
      ∧ (∀ r i, (r ≠ dst ∨ dst.backed = false ∨ s.laneActive i = false) → t.readReg r i = s.readReg r i)
      ∧ ∀ i, dst.backed = true → s.laneActive i = true →
          bits 0 16 (t.readReg dst i) = value ∧ bits 16 16 (t.readReg dst i) = bits 16 16 (s.readReg dst i))
    ∧ ∃ t, exec (.copyUpper dst value) s = .next t ∧ SameOutsideRegs s t
      ∧ (∀ r i, (r ≠ dst ∨ dst.backed = false ∨ s.laneActive i = false) → t.readReg r i = s.readReg r i)
      ∧ ∀ i, dst.backed = true → s.laneActive i = true →
          bits 16 16 (t.readReg dst i) = value ∧ bits 0 16 (t.readReg dst i) = bits 0 16 (s.readReg dst i)

/-! ### arith -/

/-- A complement flag acts on the value read: `0xFFFFFFFF - v` (43_arith.md R186; 00_scope.md R7); `RF` with
its flag reads all ones, `RT` with its flag reads 0. -/
def Obligations.ComplementFlagsActOnTheValueRead : Prop :=
  (∀ v : Word, complementIf false v = v ∧ (complementIf true v).toNat = 0xFFFFFFFF - v.toNat)
    ∧ (∀ (r : Reg) (i : Nat) (s : State),
        operand r false i s = s.readReg r i
          ∧ (operand r true i s).toNat = 0xFFFFFFFF - (s.readReg r i).toNat)
    ∧ ∀ (i : Nat) (s : State), operand .rf true i s = 0xFFFFFFFF ∧ operand .rt true i s = 0

/-- `ADD`, `SUB`, `MUL` (43_arith.md R176, R177, R178; the wrap is the spec's decision D11): modulo 2^32, in
every active lane of `dst`; `rem` is not written and its flag has no effect (the spec's decision D12). -/
def Obligations.AddSubMulWrap : Prop :=
  ∀ o : ArithOperands,
    WritesDstOnly (.arithAdd o) o (fun a b => BitVec.ofNat 32 (a.toNat + b.toNat))
      ∧ WritesDstOnly (.arithSub o) o (fun a b => BitVec.ofInt 32 ((a.toNat : Int) - (b.toNat : Int)))
      ∧ WritesDstOnly (.arithMul o) o (fun a b => BitVec.ofNat 32 (a.toNat * b.toNat))

/-- `AND`, `XOR` (43_arith.md R180, R181): bit by bit, in every active lane of `dst`; `rem` is not written and its
flag has no effect (the spec's decision D12, log entry 9). -/
def Obligations.AndXorActBitByBit : Prop :=
  ∀ o : ArithOperands,
    WritesDstOnly (.arithAnd o) o
        (fun a b => BitVec.ofFnLE fun k : Fin 32 => a.getLsbD k && b.getLsbD k)
      ∧ WritesDstOnly (.arithXor o) o
        (fun a b => BitVec.ofFnLE fun k : Fin 32 => a.getLsbD k != b.getLsbD k)

/-- `DIV` with different registers for quotient and remainder (43_arith.md R179): in every active lane,
unsigned quotient and remainder of the operands after their complement flags, both 0 when the divisor is 0,
each complemented if its flag is set, each written where its register has storage; nothing else changes.
(One register for both: DivIntoOneRegisterLeavesTheRemainder.) -/
def Obligations.DivGivesQuotientAndRemainder : Prop :=
  ∀ (o : ArithOperands) (s : State), o.dst ≠ o.rem →
    ∃ t, exec (.arithDiv o) s = .next t ∧ SameOutsideRegs s t
      ∧ (∀ r j, ((r ≠ o.dst ∧ r ≠ o.rem) ∨ r.backed = false ∨ s.laneActive j = false) →
          t.readReg r j = s.readReg r j)
      ∧ ∀ j, s.laneActive j = true → ∀ a b : Nat,
          a = (complementIf o.negateLhs (s.readReg o.lhs j)).toNat →
          b = (complementIf o.negateRhs (s.readReg o.rhs j)).toNat →
          (o.dst.backed = true → t.readReg o.dst j
            = complementIf o.negateDst (if b = 0 then 0 else BitVec.ofNat 32 (a / b)))
          ∧ (o.rem.backed = true → t.readReg o.rem j
            = complementIf o.negateRem (if b = 0 then 0 else BitVec.ofNat 32 (a - a / b * b)))

/-- `DIV` with one register for quotient and remainder (43_arith.md R175, the order is the spec's decision
D12): every active lane of it, where it has storage, ends with the remainder; nothing else changes. -/
def Obligations.DivIntoOneRegisterLeavesTheRemainder : Prop :=
  ∀ (o : ArithOperands) (s : State), o.dst = o.rem →
    ∃ t, exec (.arithDiv o) s = .next t ∧ SameOutsideRegs s t
      ∧ (∀ r j, (r ≠ o.rem ∨ r.backed = false ∨ s.laneActive j = false) → t.readReg r j = s.readReg r j)
      ∧ ∀ j, s.laneActive j = true → o.rem.backed = true → ∀ a b : Nat,
          a = (complementIf o.negateLhs (s.readReg o.lhs j)).toNat →
          b = (complementIf o.negateRhs (s.readReg o.rhs j)).toNat →
          t.readReg o.rem j
            = complementIf o.negateRem (if b = 0 then 0 else BitVec.ofNat 32 (a - a / b * b))

/-- The negation-flag idioms (43_arith.md R185): `AND` with all three flags is `OR`, with `negate_dst` is
`NAND`, with both operand flags is `NOR`; `XOR` against `RT` is `NOT`. That `rem` is not written and its flag has no
effect, whatever they are (R172), is the spec's decision D12, log entry 9. -/
def Obligations.NegationFlagsGiveTheOtherLogic : Prop :=
  ∀ (d a b m : Reg) (nm : Bool),
    WritesDstOnly (.arithAnd ⟨d, a, b, m, true, true, true, nm⟩)
        ⟨d, a, b, m, false, false, false, false⟩ (fun x y => x ||| y)
      ∧ WritesDstOnly (.arithAnd ⟨d, a, b, m, true, false, false, nm⟩)
        ⟨d, a, b, m, false, false, false, false⟩ (fun x y => ~~~(x &&& y))
      ∧ WritesDstOnly (.arithAnd ⟨d, a, b, m, false, true, true, nm⟩)
        ⟨d, a, b, m, false, false, false, false⟩ (fun x y => ~~~(x ||| y))
      ∧ WritesDstOnly (.arithXor ⟨d, a, .rt, m, false, false, false, nm⟩)
        ⟨d, a, .rt, m, false, false, false, false⟩ (fun x _ => ~~~x)

/-- The source's law (43_arith.md R177; it rests on the wrap, the spec's decision D11, log entry 9): `ADD` into a register
other than the right operand, then `SUB` of that operand, recovers the left operand in every active lane. It holds
whatever `rem` and its flag are, because neither instruction writes `rem` (R172), the spec's decision D12, log
entry 9. -/
def Obligations.SubUndoesAdd : Prop :=
  ∀ (d e a b m : Reg) (nm : Bool) (s : State) (i : Nat), d.backed = true → e.backed = true → d ≠ b →
    s.laneActive i = true →
    ∃ t u, exec (.arithAdd ⟨d, a, b, m, false, false, false, nm⟩) s = .next t
      ∧ exec (.arithSub ⟨e, d, b, m, false, false, false, nm⟩) t = .next u
      ∧ u.readReg e i = s.readReg a i

/-! ### The words that execute as a fault -/

/-- `arith` with `horizontal` = 1 and `op` <= 5 (43_arith.md R174; 60_exceptions.md R245): executing such a word
records `Unsupported` with the whole word, before any lane (so also when none is active), and changes nothing
else. That a form's meaning, which is given the decoded instruction, records the instruction's canonical word
(the last conjunct) is the model's choice, log entry 5. -/
def Obligations.HorizontalArithIsUnsupported : Prop :=
  (∀ w : Word, tagOf w = opcArith → (opOf w).toNat ≤ 5 → horizontalOf w = true →
      (∃ form ∈ horizontalForms, decode w = form (arithOperandsOf w))
        ∧ ∀ s : State, ∃ t, execute w s = .next t ∧ t.status = .faulted (.unsupported .horizontal w)
            ∧ SameOutsideStatus s t)
    ∧ ∀ form ∈ horizontalForms, ∀ (o : ArithOperands) (s : State),
        ∃ t, exec (form o) s = .next t
          ∧ t.status = .faulted (.unsupported .horizontal (encode (form o))) ∧ SameOutsideStatus s t

/-- A tag of 9 to 15, or `arith` with `op` 6 or 7 whatever `horizontal` is (60_exceptions.md R244, R251; `op` 6
and 7 are the spec's decision D22): executing such a word records `UnknownOpcode` with the whole word and changes
nothing else. That the meanings of the `op` 6 and 7 forms, which are given the decoded instruction, record the
instruction's canonical word (the last conjunct) is the model's choice, log entry 5. -/
def Obligations.UnknownOpcodesFault : Prop :=
  (∀ w : Word, 9 ≤ (tagOf w).toNat → ∃ form ∈ unknownTagForms, decode w = form w)
    ∧ (∀ w : Word, tagOf w = opcArith → 6 ≤ (opOf w).toNat →
        ∃ form ∈ unknownOpForms, decode w = form ⟨arithOperandsOf w, horizontalOf w⟩)
    ∧ (∀ w : Word, (9 ≤ (tagOf w).toNat ∨ (tagOf w = opcArith ∧ 6 ≤ (opOf w).toNat)) → ∀ s : State,
        ∃ t, execute w s = .next t ∧ t.status = .faulted (.unknownOpcode w) ∧ SameOutsideStatus s t)
    ∧ (∀ form ∈ unknownTagForms, ∀ (w : Word) (s : State),
        ∃ t, exec (form w) s = .next t ∧ t.status = .faulted (.unknownOpcode w) ∧ SameOutsideStatus s t)
    ∧ ∀ form ∈ unknownOpForms, ∀ (u : UnknownArith) (s : State),
        ∃ t, exec (form u) s = .next t ∧ t.status = .faulted (.unknownOpcode (encode (form u)))
          ∧ SameOutsideStatus s t

/-! ### Control transfer -/

/-- `jz flag, offset` (44_control.md R203): taken when every active lane of `flag` is zero (which lanes is
the spec's decision D13), to `ip` plus the signed offset in bytes, modulo 2^32 (the spec's decision D8);
nothing but `ip` changes, and not even it when the jump is not taken. -/
def Obligations.JzJumpsWhenActiveLanesAreZero : Prop :=
  ∀ (flag : Reg) (offset : BitVec 16) (s : State),
    ∃ t, exec (.jz flag offset) s = .next t ∧ SameOutsideIp s t
      ∧ (ActiveLanesZero flag s → t.ip = BitVec.ofInt 32 ((s.ip.toNat : Int) + offset.toInt))
      ∧ (¬ ActiveLanesZero flag s → t.ip = s.ip)

/-- `bz flag, offset, save_ip` where it does not fault (44_control.md R204, R210; D8 and D13 as for `jz`): not
taken, nothing changes; taken without `save_ip`, only `ip` changes; taken with it, `sp` falls by 4, the four
bytes at the new `sp` are the address of the next instruction, no other byte changes, and `ip` is the target. -/
def Obligations.BzBranchesAndSavesItsReturn : Prop :=
  ∀ (flag : Reg) (saveIp : Bool) (offset : BitVec 16) (s : State), s.mem.wf = true →
    (ActiveLanesZero flag s → saveIp = true → 4 ≤ s.sp.toNat ∧ s.sp.toNat ≤ s.mem.len) →
    ∃ t, exec (.bz flag saveIp offset) s = .next t
      ∧ SameRegs s t ∧ SameMask s t ∧ t.vlen = s.vlen ∧ t.status = s.status ∧ t.mem.len = s.mem.len
      ∧ (¬ ActiveLanesZero flag s → SameState s t)
      ∧ (ActiveLanesZero flag s → t.ip = BitVec.ofInt 32 ((s.ip.toNat : Int) + offset.toInt))
      ∧ (ActiveLanesZero flag s → saveIp = false → t.sp = s.sp ∧ SameMem s t)
      ∧ (ActiveLanesZero flag s → saveIp = true →
          t.sp.toNat = s.sp.toNat - 4
            ∧ (∀ k, k < 4 → t.mem.byte (s.sp.toNat - 4 + k) = bits (8 * k) 8 s.ip)
            ∧ ∀ a, (a < s.sp.toNat - 4 ∨ s.sp.toNat ≤ a) → t.mem.byte a = s.mem.byte a)

/-- A taken `bz` with `save_ip` and `sp < 4` (60_exceptions.md R243): `StackPushUnderflow(sp)` is recorded; `ip`
is not redirected, `sp` and memory are unchanged, and so is everything else. Which lanes decide that it is taken is
the spec's decision D13, log entry 9. -/
def Obligations.CallWithNoRoomUnderflows : Prop :=
  ∀ (flag : Reg) (offset : BitVec 16) (s : State), ActiveLanesZero flag s → s.sp.toNat < 4 →
    ∃ t, exec (.bz flag true offset) s = .next t ∧ t.status = .faulted (.stackPushUnderflow s.sp)
      ∧ SameOutsideStatus s t

/-- A taken `bz` with `save_ip` whose stack slot would pass the end of memory (60_exceptions.md R247, the spec's
decision D19): `StackOutOfBounds(sp - 4)` is recorded and nothing else changes. Which lanes decide that it is taken
is the spec's decision D13, log entry 9. -/
def Obligations.CallAboveMemoryFaults : Prop :=
  ∀ (flag : Reg) (offset : BitVec 16) (s : State), ActiveLanesZero flag s → 4 ≤ s.sp.toNat →
    s.mem.len < s.sp.toNat →
    ∃ t, exec (.bz flag true offset) s = .next t ∧ t.status = .faulted (.stackOutOfBounds (s.sp - 4))
      ∧ SameOutsideStatus s t

/-- `ret` (44_control.md R205, R211; the bounds policy is the spec's decision D19): `ip` becomes the
little-endian Word at `sp` and `sp` rises by 4 modulo 2^32; where that Word passes the end of memory,
`StackOutOfBounds(sp)` is recorded instead; nothing else changes. -/
def Obligations.RetPopsIntoIp : Prop :=
  (∀ s : State, s.sp.toNat + 4 ≤ s.mem.len →
    ∃ t, exec .ret s = .next t
      ∧ (∀ k, k < 4 → bits (8 * k) 8 t.ip = s.mem.byte (s.sp.toNat + k))
      ∧ t.sp = BitVec.ofNat 32 (s.sp.toNat + 4)
      ∧ SameRegs s t ∧ SameMask s t ∧ t.vlen = s.vlen ∧ t.status = s.status ∧ SameMem s t)
    ∧ ∀ s : State, s.mem.len < s.sp.toNat + 4 →
        ∃ t, exec .ret s = .next t ∧ t.status = .faulted (.stackOutOfBounds s.sp) ∧ SameOutsideStatus s t

/-- Call and return symmetry (44_control.md R212): after a taken `bz` with `save_ip`, a `ret` run in any later
state with the `sp` the `bz` left and the four bytes there unmodified sets `ip` to the instruction after the
`bz`, and `sp` to what it was before it, for any offset. Which lanes decide that it is taken is the spec's decision
D13, log entry 9. -/
def Obligations.ReturnComesBackAfterTheCall : Prop :=
  ∀ (flag : Reg) (offset : BitVec 16) (s : State), s.mem.wf = true → ActiveLanesZero flag s →
    4 ≤ s.sp.toNat → s.sp.toNat ≤ s.mem.len →
    ∃ t, exec (.bz flag true offset) s = .next t
      ∧ ∀ u : State, u.sp = t.sp → u.mem.len = t.mem.len →
          (∀ k, k < 4 → u.mem.byte (t.sp.toNat + k) = t.mem.byte (t.sp.toNat + k)) →
          ∃ v, exec .ret u = .next v ∧ v.ip = s.ip ∧ v.sp = s.sp

/-- `bz` with `save_ip` = 0 is `jz` (44_control.md R206). -/
def Obligations.BzWithoutSaveIsJz : Prop :=
  ∀ (flag : Reg) (offset : BitVec 16) (s : State), exec (.bz flag false offset) s = exec (.jz flag offset) s

/-- The corner cases of the zero test (44_control.md R207, R208; they rest on the spec's decisions D8 and D13):
`jz RF` is always taken; with no active lane every jump is taken; with an active lane `jz RT` never is. -/
def Obligations.BranchesOnConstantsAndNoLanes : Prop :=
  (∀ (offset : BitVec 16) (s : State), ∃ t, exec (.jz .rf offset) s = .next t
      ∧ t.ip = BitVec.ofInt 32 ((s.ip.toNat : Int) + offset.toInt))
    ∧ (∀ (flag : Reg) (offset : BitVec 16) (s : State), (∀ i, s.laneActive i = false) →
        ∃ t, exec (.jz flag offset) s = .next t
          ∧ t.ip = BitVec.ofInt 32 ((s.ip.toNat : Int) + offset.toInt))
    ∧ ∀ (offset : BitVec 16) (s : State) (i : Nat), s.laneActive i = true →
        exec (.jz .rt offset) s = .next s

/-! ### inter and the host -/

/-- `inter number` (45_inter.md R230, the spec's decision D16): the status becomes the host request, whatever
`vlen` and the mask hold, and nothing else changes. -/
def Obligations.InterAsksTheHost : Prop :=
  ∀ (number : BitVec 16) (s : State),
    ∃ t, exec (.inter number) s = .next t ∧ t.status = .hostRequest number ∧ SameOutsideStatus s t

/-- The host's `Fetch` and `Execute` (70_reset_and_hazards.md R288): on a running core `Fetch` answers the word at
`ip` and advances `ip`, or records its fault (40_execution_cycle.md R122; the byte order and the bound are the spec's
decisions D6 and D19, log entry 9), and `Execute` executes any word; on a stopped core both do nothing; `Step` is
`Fetch` and then `Execute` of its result. -/
def Obligations.StepIsFetchThenExecute : Prop :=
  (∀ s : State, step s = match hostFetch s with
      | (some w, t) => hostExecute w t
      | (none, t) => .next t)
    ∧ (∀ s : State, s.isRunning = false → hostFetch s = (none, s) ∧ ∀ w, hostExecute w s = .next s)
    ∧ (∀ (s : State) (w : Word), s.isRunning = true → hostExecute w s = execute w s
        ∧ (executesAsFault (decode w) = false → hostExecute w s = exec (decode w) s))
    ∧ (∀ (s : State) (w : Word), s.isRunning = true → s.ip.toNat + 4 ≤ s.mem.len →
        (∀ k, k < 4 → bits (8 * k) 8 w = s.mem.byte (s.ip.toNat + k)) →
        hostFetch s = (some w, s.setIp (BitVec.ofNat 32 (s.ip.toNat + 4))))
    ∧ ∀ s : State, s.isRunning = true → s.mem.len < s.ip.toNat + 4 →
        (hostFetch s).1 = none ∧ (hostFetch s).2.status = .faulted (.fetchOutOfBounds s.ip)
          ∧ SameOutsideStatus s (hostFetch s).2

/-- `Resume` (70_reset_and_hazards.md R291, the spec's decision D16): it turns a host request into running,
changes nothing else, and does nothing to a running or a faulted core; after an `inter` the next step
fetches the instruction after it. -/
def Obligations.ResumeClearsAHostRequestOnly : Prop :=
  (∀ s : State, (∀ n, s.status ≠ .hostRequest n) → hostResume s = s)
    ∧ (∀ (s : State) (n : BitVec 16), s.status = .hostRequest n →
        (hostResume s).status = .running ∧ SameOutsideStatus s (hostResume s))
    ∧ ∀ (number : BitVec 16) (s : State), s.isRunning = true →
        ∃ t, exec (.inter number) s = .next t ∧ step (hostResume t) = step s

/-- The host's `Push` and `Pop` (70_reset_and_hazards.md R289, the spec's decision D25; 44_control.md R210, R211). In
bounds a push lowers `sp` by 4, puts the Word little-endian at the new `sp` and changes nothing else; a pop answers
the Word at `sp`, raises `sp` by 4 modulo 2^32 and changes nothing else; a pop after a push gives the Word and `sp`
back. Out of bounds, on a core that has not faulted, each records the fault an instruction would and changes nothing
else. That they act on a stopped core, record a fault over a host request, and on a faulted core, failing, change
nothing, is the model's reading, log entry 7. -/
def Obligations.HostPushAndPop : Prop :=
  (∀ (w : Word) (s : State), s.mem.wf = true → 4 ≤ s.sp.toNat → s.sp.toNat ≤ s.mem.len →
      (hostPush w s).sp.toNat = s.sp.toNat - 4
        ∧ (∀ k, k < 4 → (hostPush w s).mem.byte (s.sp.toNat - 4 + k) = bits (8 * k) 8 w)
        ∧ (∀ a, (a < s.sp.toNat - 4 ∨ s.sp.toNat ≤ a) → (hostPush w s).mem.byte a = s.mem.byte a)
        ∧ SameRegs s (hostPush w s) ∧ SameMask s (hostPush w s) ∧ (hostPush w s).vlen = s.vlen
        ∧ (hostPush w s).ip = s.ip ∧ (hostPush w s).status = s.status ∧ (hostPush w s).mem.len = s.mem.len
        ∧ (hostPush w s).mem.wf = true
        ∧ (hostPop (hostPush w s)).1 = some w ∧ (hostPop (hostPush w s)).2.sp = s.sp)
    ∧ (∀ s : State, s.sp.toNat + 4 ≤ s.mem.len →
        ∃ v t, hostPop s = (some v, t) ∧ (∀ k, k < 4 → bits (8 * k) 8 v = s.mem.byte (s.sp.toNat + k))
          ∧ t.sp = BitVec.ofNat 32 (s.sp.toNat + 4) ∧ SameRegs s t ∧ SameMask s t ∧ t.vlen = s.vlen
          ∧ t.ip = s.ip ∧ t.status = s.status ∧ SameMem s t)
    ∧ (∀ (w : Word) (s : State), (∀ c, s.status ≠ .faulted c) → s.sp.toNat < 4 →
        (hostPush w s).status = .faulted (.stackPushUnderflow s.sp) ∧ SameOutsideStatus s (hostPush w s))
    ∧ (∀ (w : Word) (s : State), (∀ c, s.status ≠ .faulted c) → 4 ≤ s.sp.toNat → s.mem.len < s.sp.toNat →
        (hostPush w s).status = .faulted (.stackOutOfBounds (s.sp - 4))
          ∧ SameOutsideStatus s (hostPush w s))
    ∧ (∀ s : State, (∀ c, s.status ≠ .faulted c) → s.mem.len < s.sp.toNat + 4 →
        (hostPop s).1 = none ∧ (hostPop s).2.status = .faulted (.stackOutOfBounds s.sp)
          ∧ SameOutsideStatus s (hostPop s).2)
    ∧ ∀ (w : Word) (s : State) (c : FaultCause), s.status = .faulted c →
        ((s.sp.toNat < 4 ∨ s.mem.len < s.sp.toNat) → hostPush w s = s)
          ∧ (s.mem.len < s.sp.toNat + 4 → hostPop s = (none, s))

/-- The host's writes (70_reset_and_hazards.md R290, the spec's decision D25): a byte inside memory becomes what is
written and nothing else changes, an address outside memory is not written (the model's choice, log entry 10), and
`ip` becomes what is written. -/
def Obligations.HostWritesOneByteOrIp : Prop :=
  (∀ (a : Nat) (b : Byte) (s : State), s.mem.wf = true → a < s.mem.len →
      SameOutsideMem s (hostWriteByte a b s) ∧ (hostWriteByte a b s).mem.wf = true
        ∧ ∀ x, (hostWriteByte a b s).mem.byte x = if x = a then b else s.mem.byte x)
    ∧ (∀ (a : Nat) (b : Byte) (s : State), s.mem.len ≤ a → hostWriteByte a b s = s)
    ∧ ∀ (a : Word) (s : State), (hostSetIp a s).ip = a ∧ SameOutsideIp s (hostSetIp a s)

/-! ### The whole machine -/

/-- Inactive lanes are untouched by every vectorized instruction (40_execution_cycle.md R127). From two states
that agree in everything but inactive register lanes, it completes in both, and the two next states again agree in
everything but inactive register lanes: no inactive lane was read. It changes no inactive lane of any register: none
was written. A byte of memory that no active lane's access reaches reads as before, and a changed status is the
bounds fault of an active lane's access: no access was made for an inactive lane. -/
def Obligations.VectorInstructionsIgnoreInactiveLanes : Prop :=
  ∀ i : Instr, vectorized i = true → ∀ s u : State,
    u.mask = s.mask → u.vlen = s.vlen → u.ip = s.ip → u.sp = s.sp → u.status = s.status → u.mem = s.mem →
    (∀ r j, s.laneActive j = true → u.readReg r j = s.readReg r j) →
    ∃ t v, exec i s = .next t ∧ exec i u = .next v
      ∧ (∀ r j, s.laneActive j = true → v.readReg r j = t.readReg r j)
      ∧ v.mask = t.mask ∧ v.vlen = t.vlen ∧ v.ip = t.ip ∧ v.sp = t.sp ∧ v.status = t.status ∧ v.mem = t.mem
      ∧ (∀ r j, s.laneActive j = false → t.readReg r j = s.readReg r j)
      ∧ (∀ a, (∀ ptr n, memoryAccess i = some (ptr, n) → ∀ j, s.laneActive j = true → ¬ LaneReaches ptr n s j a) →
          t.mem.byte a = s.mem.byte a)
      ∧ (t.status ≠ s.status → ∃ ptr n k, memoryAccess i = some (ptr, n) ∧ s.laneActive k = true
          ∧ s.mem.len < (s.readReg ptr k).toNat + n
          ∧ t.status = .faulted (.memoryOutOfBounds (s.readReg ptr k) n k))

/-- With no active lane a vectorized instruction changes nothing (40_execution_cycle.md R129). -/
def Obligations.NoActiveLaneNoEffect : Prop :=
  ∀ (i : Instr) (s : State), vectorized i = true → (∀ j, s.laneActive j = false) → exec i s = .next s

/-- Which instructions write the control state (10_state.md R31, R33, R35, R38): `vlen` only `vlenset`, the mask
only `maskset`, `sp` only `bz` with `save_ip` and `ret`, and `ip`, beyond the fetch's advance, only `jz`, `bz`
and `ret`. -/
def Obligations.ControlStateHasFewWriters : Prop :=
  ∀ (i : Instr) (s t : State), exec i s = .next t →
    (t.vlen ≠ s.vlen → ∃ value, i = .vlenset value)
      ∧ (¬ SameMask s t → ∃ src, i = .maskset src)
      ∧ (t.sp ≠ s.sp → (∃ flag offset, i = .bz flag true offset) ∨ i = .ret)
      ∧ (t.ip ≠ s.ip →
          (∃ flag offset, i = .jz flag offset) ∨ (∃ flag saveIp offset, i = .bz flag saveIp offset) ∨ i = .ret)

/-- Which instructions write memory (20_memory.md R50, R52): a byte changes only by a `memory` store or a `bz` with
`save_ip`; the length never changes. -/
def Obligations.OnlyStoresAndCallsWriteMemory : Prop :=
  ∀ (i : Instr) (s t : State), exec i s = .next t →
    t.mem.len = s.mem.len
      ∧ (∀ a, t.mem.byte a ≠ s.mem.byte a →
          (∃ reg ptr bytesCount, i = .memoryStore reg ptr bytesCount) ∨ ∃ flag offset, i = .bz flag true offset)

/-- Which register lanes an instruction may write (10_state.md R27): active lanes of its own destinations that have
storage, and no other. -/
def Obligations.RegistersChangeOnlyInActiveDestinationLanes : Prop :=
  ∀ (i : Instr) (s t : State), exec i s = .next t → ∀ r j, t.readReg r j ≠ s.readReg r j →
    r ∈ destinations i ∧ r.backed = true ∧ s.laneActive j = true

/-- Who may raise which fault (60_exceptions.md R241, the causes are the spec's decision D14): an instruction that
changes the status is `inter` with its number, or records a cause of its own: `MemoryOutOfBounds` by `memory`,
`StackPushUnderflow` by `bz` with `save_ip`, `StackOutOfBounds` by it or `ret`, `UnknownOpcode` and `Unsupported` by
those that name no supported operation; none records `FetchOutOfBounds`. That the word these two record is, in `exec`,
the instruction's canonical word is the model's choice, log entry 5. -/
def Obligations.EachFaultHasItsOwnRaisers : Prop :=
  ∀ (i : Instr) (s t : State), exec i s = .next t → t.status ≠ s.status →
    (∃ n, i = .inter n ∧ t.status = .hostRequest n)
      ∨ (∃ a n k, t.status = .faulted (.memoryOutOfBounds a n k)
          ∧ ((∃ reg ptr bc, i = .memoryLoad reg ptr bc) ∨ ∃ reg ptr bc, i = .memoryStore reg ptr bc))
      ∨ (t.status = .faulted (.stackPushUnderflow s.sp) ∧ ∃ flag offset, i = .bz flag true offset)
      ∨ (∃ a, t.status = .faulted (.stackOutOfBounds a)
          ∧ ((∃ flag offset, i = .bz flag true offset) ∨ i = .ret))
      ∨ (t.status = .faulted (.unknownOpcode (encode i))
          ∧ ((∃ form ∈ unknownTagForms, ∃ w, i = form w) ∨ ∃ form ∈ unknownOpForms, ∃ u, i = form u))
      ∨ (t.status = .faulted (.unsupported .horizontal (encode i)) ∧ ∃ form ∈ horizontalForms, ∃ o, i = form o)

/-- `Execute` is the decoded instruction's meaning, and the word it is given is the one a fault records (00_scope.md
R11; 40_execution_cycle.md R123; 60_exceptions.md R241; log entry 5): of two words that differ only in bits their row
ignores the effect is the same in everything but that record (30_encoding.md R97, the spec's decision D9). -/
def Obligations.ExecuteRecordsTheWord : Prop :=
  (∀ (w : Word) (s : State), s.isRunning = true → executesAsFault (decode w) = false →
      execute w s = exec (decode w) s)
    ∧ (∀ (w : Word) (s : State), executesAsFault (decode w) = true →
        ∃ t, execute w s = .next t ∧ SameOutsideStatus s t
          ∧ (t.status = .faulted (.unknownOpcode w) ∨ t.status = .faulted (.unsupported .horizontal w)))
    ∧ ∀ (v w : Word) (s : State), (decode v).keptWord = none →
        v &&& ~~~(decode v).row.ignored = w &&& ~~~(decode v).row.ignored →
        ∃ t u, execute v s = .next t ∧ execute w s = .next u ∧ u.regs = t.regs ∧ u.mask = t.mask
          ∧ u.vlen = t.vlen ∧ u.ip = t.ip ∧ u.sp = t.sp ∧ u.mem = t.mem
          ∧ (s.isRunning = true → executesAsFault (decode v) = false → u.status = t.status)
end

