-- ==== Sys2Proof/Laws/State.lean ====
section
/-! SUPPORT. What each update of the state does to each field, and to what is read through the register
and mask accessors; the fields after reset. -/

namespace Sys2Proof.Machine

/-! ### Fields after updates -/

@[simp] theorem State.regs_setRegs (s : State) (v : Bank Config.nreg (Bank Config.lanes Word)) : (s.setRegs v).regs = v := rfl
@[simp] theorem State.mask_setRegs (s : State) (v : Bank Config.nreg (Bank Config.lanes Word)) : (s.setRegs v).mask = s.mask := rfl
@[simp] theorem State.vlen_setRegs (s : State) (v : Bank Config.nreg (Bank Config.lanes Word)) : (s.setRegs v).vlen = s.vlen := rfl
@[simp] theorem State.ip_setRegs (s : State) (v : Bank Config.nreg (Bank Config.lanes Word)) : (s.setRegs v).ip = s.ip := rfl
@[simp] theorem State.sp_setRegs (s : State) (v : Bank Config.nreg (Bank Config.lanes Word)) : (s.setRegs v).sp = s.sp := rfl
@[simp] theorem State.status_setRegs (s : State) (v : Bank Config.nreg (Bank Config.lanes Word)) : (s.setRegs v).status = s.status := rfl
@[simp] theorem State.mem_setRegs (s : State) (v : Bank Config.nreg (Bank Config.lanes Word)) : (s.setRegs v).mem = s.mem := rfl

@[simp] theorem State.regs_setMask (s : State) (v : Bank Config.lanes Bool) : (s.setMask v).regs = s.regs := rfl
@[simp] theorem State.mask_setMask (s : State) (v : Bank Config.lanes Bool) : (s.setMask v).mask = v := rfl
@[simp] theorem State.vlen_setMask (s : State) (v : Bank Config.lanes Bool) : (s.setMask v).vlen = s.vlen := rfl
@[simp] theorem State.ip_setMask (s : State) (v : Bank Config.lanes Bool) : (s.setMask v).ip = s.ip := rfl
@[simp] theorem State.sp_setMask (s : State) (v : Bank Config.lanes Bool) : (s.setMask v).sp = s.sp := rfl
@[simp] theorem State.status_setMask (s : State) (v : Bank Config.lanes Bool) : (s.setMask v).status = s.status := rfl
@[simp] theorem State.mem_setMask (s : State) (v : Bank Config.lanes Bool) : (s.setMask v).mem = s.mem := rfl

@[simp] theorem State.regs_setVlen (s : State) (v : BitVec 8) : (s.setVlen v).regs = s.regs := rfl
@[simp] theorem State.mask_setVlen (s : State) (v : BitVec 8) : (s.setVlen v).mask = s.mask := rfl
@[simp] theorem State.vlen_setVlen (s : State) (v : BitVec 8) : (s.setVlen v).vlen = v := rfl
@[simp] theorem State.ip_setVlen (s : State) (v : BitVec 8) : (s.setVlen v).ip = s.ip := rfl
@[simp] theorem State.sp_setVlen (s : State) (v : BitVec 8) : (s.setVlen v).sp = s.sp := rfl
@[simp] theorem State.status_setVlen (s : State) (v : BitVec 8) : (s.setVlen v).status = s.status := rfl
@[simp] theorem State.mem_setVlen (s : State) (v : BitVec 8) : (s.setVlen v).mem = s.mem := rfl

@[simp] theorem State.regs_setIp (s : State) (v : Word) : (s.setIp v).regs = s.regs := rfl
@[simp] theorem State.mask_setIp (s : State) (v : Word) : (s.setIp v).mask = s.mask := rfl
@[simp] theorem State.vlen_setIp (s : State) (v : Word) : (s.setIp v).vlen = s.vlen := rfl
@[simp] theorem State.ip_setIp (s : State) (v : Word) : (s.setIp v).ip = v := rfl
@[simp] theorem State.sp_setIp (s : State) (v : Word) : (s.setIp v).sp = s.sp := rfl
@[simp] theorem State.status_setIp (s : State) (v : Word) : (s.setIp v).status = s.status := rfl
@[simp] theorem State.mem_setIp (s : State) (v : Word) : (s.setIp v).mem = s.mem := rfl

@[simp] theorem State.regs_setSp (s : State) (v : Word) : (s.setSp v).regs = s.regs := rfl
@[simp] theorem State.mask_setSp (s : State) (v : Word) : (s.setSp v).mask = s.mask := rfl
@[simp] theorem State.vlen_setSp (s : State) (v : Word) : (s.setSp v).vlen = s.vlen := rfl
@[simp] theorem State.ip_setSp (s : State) (v : Word) : (s.setSp v).ip = s.ip := rfl
@[simp] theorem State.sp_setSp (s : State) (v : Word) : (s.setSp v).sp = v := rfl
@[simp] theorem State.status_setSp (s : State) (v : Word) : (s.setSp v).status = s.status := rfl
@[simp] theorem State.mem_setSp (s : State) (v : Word) : (s.setSp v).mem = s.mem := rfl

@[simp] theorem State.regs_setStatus (s : State) (v : Status) : (s.setStatus v).regs = s.regs := rfl
@[simp] theorem State.mask_setStatus (s : State) (v : Status) : (s.setStatus v).mask = s.mask := rfl
@[simp] theorem State.vlen_setStatus (s : State) (v : Status) : (s.setStatus v).vlen = s.vlen := rfl
@[simp] theorem State.ip_setStatus (s : State) (v : Status) : (s.setStatus v).ip = s.ip := rfl
@[simp] theorem State.sp_setStatus (s : State) (v : Status) : (s.setStatus v).sp = s.sp := rfl
@[simp] theorem State.status_setStatus (s : State) (v : Status) : (s.setStatus v).status = v := rfl
@[simp] theorem State.mem_setStatus (s : State) (v : Status) : (s.setStatus v).mem = s.mem := rfl

@[simp] theorem State.regs_setMem (s : State) (v : Memory) : (s.setMem v).regs = s.regs := rfl
@[simp] theorem State.mask_setMem (s : State) (v : Memory) : (s.setMem v).mask = s.mask := rfl
@[simp] theorem State.vlen_setMem (s : State) (v : Memory) : (s.setMem v).vlen = s.vlen := rfl
@[simp] theorem State.ip_setMem (s : State) (v : Memory) : (s.setMem v).ip = s.ip := rfl
@[simp] theorem State.sp_setMem (s : State) (v : Memory) : (s.setMem v).sp = s.sp := rfl
@[simp] theorem State.status_setMem (s : State) (v : Memory) : (s.setMem v).status = s.status := rfl
@[simp] theorem State.mem_setMem (s : State) (v : Memory) : (s.setMem v).mem = v := rfl

/-! ### Writing back what a field holds, and writing a field twice -/

@[simp] theorem State.setRegs_self (s : State) : s.setRegs s.regs = s := rfl
@[simp] theorem State.setRegs_setRegs (s : State) (v w : Bank Config.nreg (Bank Config.lanes Word)) : (s.setRegs v).setRegs w = s.setRegs w := rfl
@[simp] theorem State.setMask_self (s : State) : s.setMask s.mask = s := rfl
@[simp] theorem State.setMask_setMask (s : State) (v w : Bank Config.lanes Bool) : (s.setMask v).setMask w = s.setMask w := rfl
@[simp] theorem State.setVlen_self (s : State) : s.setVlen s.vlen = s := rfl
@[simp] theorem State.setVlen_setVlen (s : State) (v w : BitVec 8) : (s.setVlen v).setVlen w = s.setVlen w := rfl
@[simp] theorem State.setIp_self (s : State) : s.setIp s.ip = s := rfl
@[simp] theorem State.setIp_setIp (s : State) (v w : Word) : (s.setIp v).setIp w = s.setIp w := rfl
@[simp] theorem State.setSp_self (s : State) : s.setSp s.sp = s := rfl
@[simp] theorem State.setSp_setSp (s : State) (v w : Word) : (s.setSp v).setSp w = s.setSp w := rfl
@[simp] theorem State.setStatus_self (s : State) : s.setStatus s.status = s := rfl
@[simp] theorem State.setStatus_setStatus (s : State) (v w : Status) : (s.setStatus v).setStatus w = s.setStatus w := rfl
@[simp] theorem State.setMem_self (s : State) : s.setMem s.mem = s := rfl
@[simp] theorem State.setMem_setMem (s : State) (v w : Memory) : (s.setMem v).setMem w = s.setMem w := rfl

/-! ### The accessors and the lane tests after updates of other fields -/

@[simp] theorem State.readMask_setRegs (s : State) (v : Bank Config.nreg (Bank Config.lanes Word)) (i : Nat) :
    (s.setRegs v).readMask i = s.readMask i := rfl
@[simp] theorem State.laneEnabled_setRegs (s : State) (v : Bank Config.nreg (Bank Config.lanes Word)) (i : Nat) :
    (s.setRegs v).laneEnabled i = s.laneEnabled i := rfl
@[simp] theorem State.laneActive_setRegs (s : State) (v : Bank Config.nreg (Bank Config.lanes Word)) (i : Nat) :
    (s.setRegs v).laneActive i = s.laneActive i := rfl
@[simp] theorem State.readReg_setMask (s : State) (v : Bank Config.lanes Bool) (r : Reg) (i : Nat) :
    (s.setMask v).readReg r i = s.readReg r i := rfl
@[simp] theorem State.laneEnabled_setMask (s : State) (v : Bank Config.lanes Bool) (i : Nat) :
    (s.setMask v).laneEnabled i = s.laneEnabled i := rfl
@[simp] theorem State.readReg_setVlen (s : State) (v : BitVec 8) (r : Reg) (i : Nat) :
    (s.setVlen v).readReg r i = s.readReg r i := rfl
@[simp] theorem State.readMask_setVlen (s : State) (v : BitVec 8) (i : Nat) :
    (s.setVlen v).readMask i = s.readMask i := rfl
@[simp] theorem State.readReg_setIp (s : State) (v : Word) (r : Reg) (i : Nat) :
    (s.setIp v).readReg r i = s.readReg r i := rfl
@[simp] theorem State.readMask_setIp (s : State) (v : Word) (i : Nat) :
    (s.setIp v).readMask i = s.readMask i := rfl
@[simp] theorem State.laneEnabled_setIp (s : State) (v : Word) (i : Nat) :
    (s.setIp v).laneEnabled i = s.laneEnabled i := rfl
@[simp] theorem State.laneActive_setIp (s : State) (v : Word) (i : Nat) :
    (s.setIp v).laneActive i = s.laneActive i := rfl
@[simp] theorem State.readReg_setSp (s : State) (v : Word) (r : Reg) (i : Nat) :
    (s.setSp v).readReg r i = s.readReg r i := rfl
@[simp] theorem State.readMask_setSp (s : State) (v : Word) (i : Nat) :
    (s.setSp v).readMask i = s.readMask i := rfl
@[simp] theorem State.laneEnabled_setSp (s : State) (v : Word) (i : Nat) :
    (s.setSp v).laneEnabled i = s.laneEnabled i := rfl
@[simp] theorem State.laneActive_setSp (s : State) (v : Word) (i : Nat) :
    (s.setSp v).laneActive i = s.laneActive i := rfl
@[simp] theorem State.readReg_setStatus (s : State) (v : Status) (r : Reg) (i : Nat) :
    (s.setStatus v).readReg r i = s.readReg r i := rfl
@[simp] theorem State.readMask_setStatus (s : State) (v : Status) (i : Nat) :
    (s.setStatus v).readMask i = s.readMask i := rfl
@[simp] theorem State.laneEnabled_setStatus (s : State) (v : Status) (i : Nat) :
    (s.setStatus v).laneEnabled i = s.laneEnabled i := rfl
@[simp] theorem State.laneActive_setStatus (s : State) (v : Status) (i : Nat) :
    (s.setStatus v).laneActive i = s.laneActive i := rfl
@[simp] theorem State.readReg_setMem (s : State) (v : Memory) (r : Reg) (i : Nat) :
    (s.setMem v).readReg r i = s.readReg r i := rfl
@[simp] theorem State.readMask_setMem (s : State) (v : Memory) (i : Nat) :
    (s.setMem v).readMask i = s.readMask i := rfl
@[simp] theorem State.laneEnabled_setMem (s : State) (v : Memory) (i : Nat) :
    (s.setMem v).laneEnabled i = s.laneEnabled i := rfl
@[simp] theorem State.laneActive_setMem (s : State) (v : Memory) (i : Nat) :
    (s.setMem v).laneActive i = s.laneActive i := rfl

/-! ### Raising a fault -/

@[simp] theorem regs_raise (c : FaultCause) (s : State) : (raise c s).regs = s.regs := rfl
@[simp] theorem mask_raise (c : FaultCause) (s : State) : (raise c s).mask = s.mask := rfl
@[simp] theorem vlen_raise (c : FaultCause) (s : State) : (raise c s).vlen = s.vlen := rfl
@[simp] theorem ip_raise (c : FaultCause) (s : State) : (raise c s).ip = s.ip := rfl
@[simp] theorem sp_raise (c : FaultCause) (s : State) : (raise c s).sp = s.sp := rfl
@[simp] theorem status_raise (c : FaultCause) (s : State) : (raise c s).status = .faulted c := rfl
@[simp] theorem mem_raise (c : FaultCause) (s : State) : (raise c s).mem = s.mem := rfl
@[simp] theorem readReg_raise (c : FaultCause) (s : State) (r : Reg) (i : Nat) :
    (raise c s).readReg r i = s.readReg r i := rfl
@[simp] theorem readMask_raise (c : FaultCause) (s : State) (i : Nat) :
    (raise c s).readMask i = s.readMask i := rfl

/-! ### Lanes -/

/-- A lane is active when it is at most `vlen` and its mask bit is set. -/
theorem State.laneActive_iff (s : State) (i : Nat) :
    s.laneActive i = true ↔ i ≤ s.vlen.toNat ∧ s.readMask i = true := by
  simp [State.laneActive, State.laneEnabled]

/-- The enabled lanes are those at most `vlen`. -/
theorem State.mem_enabledLanes (s : State) (i : Nat) : i ∈ s.enabledLanes ↔ i ≤ s.vlen.toNat := by
  simp [State.enabledLanes]

/-- Every enabled lane exists: `vlen` has 8 bits (10_state.md R26, R33). -/
theorem State.enabled_lt_lanes (s : State) {i : Nat} (h : i ≤ s.vlen.toNat) : i < Config.lanes := by
  have := s.vlen.isLt
  simp only [Config.lanes]
  omega

end Sys2Proof.Machine
end

