-- ==== Sys2Proof/Laws/Memory.lean ====
section
/-! SUPPORT. The memory: the canonical form is kept by every operation, a read after a write gives the
byte written, a write leaves every other byte alone; the two primitives byte by byte
(20_memory.md R54, R55, R58). -/

namespace Sys2Proof.Machine

/-! ### Cells -/

/-- The rising test says what it says of every pair of cells, not only of neighbours. -/
theorem cellsRise_iff (cs : List Host.Cell) :
    cellsRise cs = true ↔ cs.Pairwise fun c d => c.1 < d.1 := by
  induction cs with
  | nil => simp [cellsRise]
  | cons c rest ih =>
    cases rest with
    | nil => simp [cellsRise]
    | cons d rest =>
      rw [cellsRise, Bool.and_eq_true, decide_eq_true_eq, ih, List.pairwise_cons (a := c)]
      constructor
      · rintro ⟨hcd, hp⟩
        refine ⟨fun e he => ?_, hp⟩
        rcases List.mem_cons.1 he with rfl | he
        · exact hcd
        · exact hcd.trans ((List.pairwise_cons.1 hp).1 e he)
      · rintro ⟨hall, hp⟩
        exact ⟨hall d (by simp), hp⟩

/-- An address no cell names reads as an unlisted byte. -/
theorem cellsByte_of_absent {cs : List Host.Cell} {a : Nat} (h : ∀ c ∈ cs, c.1 ≠ a) :
    cellsByte cs a = Config.unlistedByte := by
  induction cs with
  | nil => rfl
  | cons c rest ih =>
    obtain ⟨k, b⟩ := c
    have hk : k ≠ a := h (k, b) (by simp)
    simp only [cellsByte, hk, ↓reduceIte]
    exact ih fun c hc => h c (by simp [hc])

theorem cellsByte_cellsSet_ne (cs : List Host.Cell) {a x : Nat} (b : Byte) (h : x ≠ a) :
    cellsByte (cellsSet cs a b) x = cellsByte cs x := by
  induction cs with
  | nil => by_cases hb : b = Config.unlistedByte <;> simp [cellsSet, cellsByte, hb, h.symm]
  | cons c rest ih =>
    obtain ⟨k, d⟩ := c
    simp only [cellsSet]
    by_cases h1 : k < a
    · simp [h1, cellsByte, ih]
    · by_cases h2 : k = a
      · subst h2
        by_cases hb : b = Config.unlistedByte <;> simp [hb, cellsByte, h.symm]
      · by_cases hb : b = Config.unlistedByte <;> simp [h1, h2, hb, cellsByte, h.symm]

theorem cellsByte_cellsSet_self {cs : List Host.Cell} (hr : cs.Pairwise fun c d => c.1 < d.1)
    (a : Nat) (b : Byte) : cellsByte (cellsSet cs a b) a = b := by
  induction cs with
  | nil => by_cases hb : b = Config.unlistedByte <;> simp [cellsSet, cellsByte, hb]
  | cons c rest ih =>
    obtain ⟨k, d⟩ := c
    obtain ⟨hk, hp⟩ := List.pairwise_cons.1 hr
    simp only [cellsSet]
    by_cases h1 : k < a
    · have : k ≠ a := by omega
      simp [h1, cellsByte, this, ih hp]
    · have above : ∀ c ∈ rest, c.1 ≠ a := fun c hc => by
        have := hk c hc
        simp only at this
        omega
      by_cases h2 : k = a
      · subst h2
        by_cases hb : b = Config.unlistedByte
        · simp [hb, cellsByte_of_absent above]
        · simp [hb, cellsByte]
      · by_cases hb : b = Config.unlistedByte
        · simp [h1, h2, hb, cellsByte, cellsByte_of_absent above]
        · simp [h1, h2, hb, cellsByte]

/-- A set cell is the new one or an old one. -/
theorem mem_cellsSet {cs : List Host.Cell} {a : Nat} {b : Byte} {c : Host.Cell}
    (h : c ∈ cellsSet cs a b) : c ∈ cs ∨ (c = (a, b) ∧ b ≠ Config.unlistedByte) := by
  induction cs with
  | nil =>
    by_cases hb : b = Config.unlistedByte <;> simp [cellsSet, hb] at h ⊢
    exact h
  | cons d rest ih =>
    obtain ⟨k, e⟩ := d
    simp only [cellsSet] at h
    by_cases h1 : k < a
    · simp only [h1, ↓reduceIte, List.mem_cons] at h
      rcases h with h | h
      · exact .inl (by simp [h])
      · exact (ih h).imp (fun h => by simp [h]) id
    · by_cases h2 : k = a
      · by_cases hb : b = Config.unlistedByte
        · simp only [h2, hb, lt_irrefl, ↓reduceIte] at h
          exact .inl (by simp [h])
        · simp only [h2, hb, lt_irrefl, ↓reduceIte, List.mem_cons] at h
          rcases h with h | h
          · exact .inr ⟨h, hb⟩
          · exact .inl (by simp [h])
      · by_cases hb : b = Config.unlistedByte
        · simp only [h1, h2, hb, ↓reduceIte] at h
          exact .inl h
        · simp only [h1, h2, hb, ↓reduceIte, List.mem_cons] at h
          rcases h with h | h
          · exact .inr ⟨h, hb⟩
          · exact .inl (by simpa using h)

theorem pairwise_cellsSet {cs : List Host.Cell} (hr : cs.Pairwise fun c d => c.1 < d.1)
    (a : Nat) (b : Byte) : (cellsSet cs a b).Pairwise fun c d => c.1 < d.1 := by
  induction cs with
  | nil => by_cases hb : b = Config.unlistedByte <;> simp [cellsSet, hb]
  | cons c rest ih =>
    obtain ⟨k, d⟩ := c
    obtain ⟨hk, hp⟩ := List.pairwise_cons.1 hr
    simp only [cellsSet]
    by_cases h1 : k < a
    · simp only [h1, ↓reduceIte, List.pairwise_cons]
      refine ⟨fun e he => ?_, ih hp⟩
      rcases mem_cellsSet he with he | ⟨rfl, _⟩
      · exact hk e he
      · exact h1
    · by_cases h2 : k = a
      · subst h2
        by_cases hb : b = Config.unlistedByte
        · simp [hb, hp]
        · simp only [lt_irrefl, ↓reduceIte, hb, List.pairwise_cons]
          exact ⟨hk, hp⟩
      · by_cases hb : b = Config.unlistedByte
        · simp only [h1, h2, hb, ↓reduceIte]
          exact hr
        · simp only [h1, h2, hb, ↓reduceIte]
          refine List.pairwise_cons.2 ⟨fun e he => ?_, hr⟩
          rcases List.mem_cons.1 he with rfl | he
          · simp only
            omega
          · have := hk e he
            simp only at this ⊢
            omega

/-! ### One byte -/

/-- The canonical form, taken apart. -/
theorem Memory.wf_iff (m : Memory) :
    m.wf = true ↔ m.len ≤ Config.maxMemLen ∧ m.cells.Pairwise (fun c d => c.1 < d.1)
      ∧ ∀ c ∈ m.cells, c.1 < m.len ∧ c.2 ≠ Config.unlistedByte := by
  simp only [Memory.wf, Bool.and_eq_true, decide_eq_true_eq, cellsRise_iff, List.all_eq_true, bne_iff_ne,
    and_assoc]

@[simp] theorem Memory.len_setByte (m : Memory) (a : Nat) (b : Byte) : (m.setByte a b).len = m.len := rfl

/-- A byte read after a byte write. -/
theorem Memory.byte_setByte {m : Memory} (h : m.wf = true) (a x : Nat) (b : Byte) :
    (m.setByte a b).byte x = if x = a then b else m.byte x := by
  by_cases hx : x = a
  · subst hx
    simpa [Memory.byte, Memory.setByte] using cellsByte_cellsSet_self ((Memory.wf_iff m).1 h).2.1 x b
  · simpa [Memory.byte, Memory.setByte, hx] using cellsByte_cellsSet_ne m.cells b hx

/-- A byte write inside memory keeps the canonical form. -/
theorem Memory.wf_setByte {m : Memory} (h : m.wf = true) {a : Nat} (ha : a < m.len) (b : Byte) :
    (m.setByte a b).wf = true := by
  obtain ⟨hl, hr, hc⟩ := (Memory.wf_iff m).1 h
  refine (Memory.wf_iff _).2 ⟨hl, pairwise_cellsSet hr a b, fun c hc' => ?_⟩
  rcases mem_cellsSet hc' with hm | ⟨rfl, hb⟩
  · exact hc c hm
  · exact ⟨ha, hb⟩

/-- The first byte of a canonical list of cells that differ shows the difference. -/
theorem cells_ext {cs ds : List Host.Cell} (hc : cs.Pairwise fun c d => c.1 < d.1)
    (hd : ds.Pairwise fun c d => c.1 < d.1) (hcu : ∀ c ∈ cs, c.2 ≠ Config.unlistedByte)
    (hdu : ∀ c ∈ ds, c.2 ≠ Config.unlistedByte) (h : ∀ a, cellsByte cs a = cellsByte ds a) : cs = ds := by
  induction cs generalizing ds with
  | nil =>
    cases ds with
    | nil => rfl
    | cons d ds =>
      have := h d.1
      simp only [cellsByte, ↓reduceIte] at this
      exact absurd this.symm (hdu d (by simp))
  | cons c cs ih =>
    obtain ⟨k, b⟩ := c
    obtain ⟨hk, hp⟩ := List.pairwise_cons.1 hc
    cases ds with
    | nil =>
      have := h k
      simp only [cellsByte, ↓reduceIte] at this
      exact absurd this (hcu (k, b) (by simp))
    | cons d ds =>
      obtain ⟨l, e⟩ := d
      obtain ⟨hl, hq⟩ := List.pairwise_cons.1 hd
      have above {n : Nat} (cs : List Host.Cell) (m : Nat) (hm : ∀ c ∈ cs, m < c.1) (hn : n ≤ m) :
          cellsByte cs n = Config.unlistedByte :=
        cellsByte_of_absent fun c hc => by have := hm c hc; omega
      have hkl : k = l := by
        rcases Nat.lt_trichotomy k l with hlt | heq | hgt
        · have := h k
          simp only [cellsByte, ↓reduceIte, show ¬ l = k by omega] at this
          rw [above ds l hl hlt.le] at this
          exact absurd this (hcu (k, b) (by simp))
        · exact heq
        · have := h l
          simp only [cellsByte, ↓reduceIte, show ¬ k = l by omega] at this
          rw [above cs k hk hgt.le] at this
          exact absurd this.symm (hdu (l, e) (by simp))
      subst hkl
      have hbe : b = e := by
        have := h k
        simpa [cellsByte] using this
      subst hbe
      congr 1
      refine ih hp hq (fun c hc => hcu c (by simp [hc])) (fun c hc => hdu c (by simp [hc])) fun a => ?_
      by_cases ha : k = a
      · subst ha
        rw [above cs k hk le_rfl, above ds k hl le_rfl]
      · have := h a
        simpa [cellsByte, ha] using this

/-- Two canonical memories of one length that read alike are the same data. -/
theorem Memory.ext_byte {m n : Memory} (hm : m.wf = true) (hn : n.wf = true) (hl : m.len = n.len)
    (h : ∀ a, m.byte a = n.byte a) : m = n := by
  obtain ⟨-, hmr, hmc⟩ := (Memory.wf_iff m).1 hm
  obtain ⟨-, hnr, hnc⟩ := (Memory.wf_iff n).1 hn
  have := cells_ext hmr hnr (fun c hc => (hmc c hc).2) (fun c hc => (hnc c hc).2) h
  obtain ⟨_, _⟩ := m
  obtain ⟨_, _⟩ := n
  simp_all

/-! ### Several bytes -/

@[simp] theorem Memory.len_setBytes (m : Memory) (a : Nat) (bs : List Byte) :
    (m.setBytes a bs).len = m.len := by
  induction bs generalizing m a with
  | nil => rfl
  | cons b bs ih => simp [Memory.setBytes, ih]

theorem Memory.wf_setBytes {m : Memory} (h : m.wf = true) (a : Nat) (bs : List Byte)
    (ha : a + bs.length ≤ m.len) : (m.setBytes a bs).wf = true := by
  induction bs generalizing m a with
  | nil => exact h
  | cons b bs ih =>
    simp only [List.length_cons] at ha
    exact ih (Memory.wf_setByte h (by omega) b) (a + 1) (by simp; omega)

/-- Bytes put in memory leave every other byte alone, whatever the form of the memory. -/
theorem Memory.byte_setBytes_outside (m : Memory) (a : Nat) (bs : List Byte) {x : Nat}
    (hx : x < a ∨ a + bs.length ≤ x) : (m.setBytes a bs).byte x = m.byte x := by
  induction bs generalizing m a with
  | nil => rfl
  | cons b bs ih =>
    simp only [List.length_cons] at hx
    exact (ih (m.setByte a b) (a + 1) (by omega)).trans (cellsByte_cellsSet_ne m.cells b (by omega))

/-- A byte read after several bytes are written from `a` up. -/
theorem Memory.byte_setBytes {m : Memory} (h : m.wf = true) (a : Nat) (bs : List Byte)
    (ha : a + bs.length ≤ m.len) (x : Nat) :
    (m.setBytes a bs).byte x
      = if hx : a ≤ x ∧ x < a + bs.length then bs[x - a]'(by omega) else m.byte x := by
  induction bs generalizing m a with
  | nil =>
    have : ¬ (a ≤ x ∧ x < a + ([] : List Byte).length) := by simp
    rw [dif_neg this]
    rfl
  | cons b bs ih =>
    simp only [List.length_cons] at ha
    rw [Memory.setBytes, ih (Memory.wf_setByte h (by omega) b) (a + 1) (by simp; omega),
      Memory.byte_setByte h]
    by_cases h1 : x = a
    · subst h1
      simp
    · by_cases h2 : a + 1 ≤ x ∧ x < a + 1 + bs.length
      · have h3 : a ≤ x ∧ x < a + (b :: bs).length := by simp; omega
        rw [dif_pos h2, dif_pos h3]
        obtain ⟨k, rfl⟩ : ∃ k, x = a + 1 + k := ⟨x - (a + 1), by omega⟩
        simp [show a + 1 + k - a = k + 1 by omega]
      · have h3 : ¬ (a ≤ x ∧ x < a + (b :: bs).length) := by simp; omega
        rw [dif_neg h2, dif_neg h3, if_neg h1]

@[simp] theorem Memory.length_bytes (m : Memory) (a n : Nat) : (m.bytes a n).length = n := by
  induction n generalizing a with
  | zero => rfl
  | succ n ih => simp [Memory.bytes, ih]

theorem Memory.getElem?_bytes (m : Memory) (a n k : Nat) :
    (m.bytes a n)[k]? = if k < n then some (m.byte (a + k)) else none := by
  induction n generalizing a k with
  | zero => simp [Memory.bytes]
  | succ n ih =>
    cases k with
    | zero => simp [Memory.bytes]
    | succ k => simp [Memory.bytes, ih, Nat.add_comm 1 k, Nat.add_assoc]

/-! ### Little-endian bytes -/

/-- The bits of a little-endian word are the bits of its bytes. -/
theorem getLsbD_leWord (bs : List Byte) (j : Nat) (hj : j < 32) :
    (leWord bs).getLsbD j = ((bs[j / 8]?).getD 0).getLsbD (j % 8) := by
  induction bs generalizing j with
  | nil => simp [leWord]
  | cons b bs ih =>
    simp only [leWord, BitVec.getLsbD_or, BitVec.getLsbD_setWidth, BitVec.getLsbD_shiftLeft, hj, decide_true,
      Bool.true_and]
    by_cases h : j < 8
    · simp [h, Nat.div_eq_of_lt h, Nat.mod_eq_of_lt h]
    · obtain ⟨k, rfl⟩ : ∃ k, j = k + 8 := ⟨j - 8, by omega⟩
      have hb : b.getLsbD (k + 8) = false := BitVec.getLsbD_of_ge b _ (by omega)
      rw [hb, show (k + 8) / 8 = k / 8 + 1 by omega, show (k + 8) % 8 = k % 8 by omega]
      simp [ih k (by omega)]

/-- Byte `k` of a little-endian word (20_memory.md R54): the `k`-th byte of the list, 0 beyond it. -/
theorem bits_leWord (bs : List Byte) (k : Nat) (hk : k < 4) :
    bits (8 * k) 8 (leWord bs) = (bs[k]?).getD 0 := by
  apply BitVec.eq_of_getLsbD_eq
  intro j hj
  simp only [bits, BitVec.getLsbD_extractLsb', hj, decide_true, Bool.true_and]
  rw [getLsbD_leWord bs _ (by omega), show (8 * k + j) / 8 = k by omega, show (8 * k + j) % 8 = j by omega]

@[simp] theorem length_leBytes (n : Nat) (v : Word) : (leBytes n v).length = n := by
  induction n generalizing v with
  | zero => rfl
  | succ n ih => simp [leBytes, ih]

/-- Byte `k` of the low `n` bytes of a word (20_memory.md R55). -/
theorem getElem_leBytes (n : Nat) (v : Word) (k : Nat) (hk : k < (leBytes n v).length) :
    (leBytes n v)[k] = bits (8 * k) 8 v := by
  induction n generalizing v k with
  | zero => simp [leBytes] at hk
  | succ n ih =>
    cases k with
    | zero =>
      apply BitVec.eq_of_getLsbD_eq
      intro j hj
      simp [leBytes, bits, hj]
    | succ k =>
      simp only [leBytes, List.getElem_cons_succ]
      rw [ih]
      apply BitVec.eq_of_getLsbD_eq
      intro j hj
      simp only [bits, BitVec.getLsbD_extractLsb', hj, decide_true, Bool.true_and, BitVec.getLsbD_ushiftRight]
      congr 1
      omega

/-- A word is known by its four bytes. -/
theorem word_ext_bits {v w : Word} (h : ∀ k < 4, bits (8 * k) 8 v = bits (8 * k) 8 w) : v = w := by
  apply BitVec.eq_of_getLsbD_eq
  intro j hj
  have := congrArg (fun b : BitVec 8 => b.getLsbD (j % 8)) (h (j / 8) (by omega))
  simp only [bits, BitVec.getLsbD_extractLsb', show j % 8 < 8 by omega, decide_true, Bool.true_and] at this
  simpa [show 8 * (j / 8) + j % 8 = j by omega] using this

/-- The bytes of a word, put together again, are the word (20_memory.md R57). -/
theorem leWord_leBytes (v : Word) : leWord (leBytes 4 v) = v := by
  refine word_ext_bits fun k hk => ?_
  rw [bits_leWord _ k hk, List.getElem?_eq_getElem (by simpa using hk), Option.getD_some, getElem_leBytes]

/-! ### The two primitives -/

theorem Memory.inBounds_iff (m : Memory) (addr : Word) (n : Nat) :
    m.inBounds addr n = true ↔ addr.toNat + n ≤ m.len := by simp [Memory.inBounds]

/-- `MemRead` in bounds (20_memory.md R54). -/
theorem Memory.read_of_inBounds {m : Memory} {addr : Word} {n : Nat} (h : addr.toNat + n ≤ m.len) :
    m.read addr n = some (leWord (m.bytes addr.toNat n)) := by simp [Memory.read, Memory.inBounds, h]

/-- `MemRead` out of bounds answers nothing (20_memory.md R58). -/
theorem Memory.read_eq_none_iff (m : Memory) (addr : Word) (n : Nat) :
    m.read addr n = none ↔ m.len < addr.toNat + n := by simp [Memory.read, Memory.inBounds]

/-- What `MemRead` answers, byte by byte (20_memory.md R54). -/
theorem Memory.read_spec {m : Memory} {addr w : Word} {n : Nat} (h : m.read addr n = some w) :
    addr.toNat + n ≤ m.len
      ∧ ∀ k < 4, bits (8 * k) 8 w = if k < n then m.byte (addr.toNat + k) else 0 := by
  by_cases hb : addr.toNat + n ≤ m.len
  · rw [Memory.read_of_inBounds hb, Option.some.injEq] at h
    subst h
    refine ⟨hb, fun k hk => ?_⟩
    rw [bits_leWord _ k hk, Memory.getElem?_bytes]
    by_cases h : k < n <;> simp [h]
  · rw [(Memory.read_eq_none_iff m addr n).2 (by omega)] at h
    cases h

/-- `MemWrite` out of bounds moves no byte (20_memory.md R58). -/
theorem Memory.write_eq_none_iff (m : Memory) (addr : Word) (n : Nat) (v : Word) :
    m.write addr n v = none ↔ m.len < addr.toNat + n := by simp [Memory.write, Memory.inBounds]

/-- `MemWrite` in bounds (20_memory.md R55). -/
theorem Memory.write_of_inBounds {m : Memory} {addr : Word} {n : Nat} (h : addr.toNat + n ≤ m.len)
    (v : Word) : m.write addr n v = some (m.setBytes addr.toNat (leBytes n v)) := by
  simp [Memory.write, Memory.inBounds, h]

/-- `MemWrite` keeps the length of the memory. -/
theorem Memory.len_write {m m' : Memory} {addr v : Word} {n : Nat} (h : m.write addr n v = some m') :
    m'.len = m.len := by
  by_cases hb : addr.toNat + n ≤ m.len
  · rw [Memory.write_of_inBounds hb, Option.some.injEq] at h
    subst h
    simp
  · rw [(Memory.write_eq_none_iff m addr n v).2 (by omega)] at h
    cases h

/-- Everything `MemWrite` can do (20_memory.md R55): the access was in bounds, the canonical form is kept,
exactly the `n` bytes change, and they hold the low bytes of the value. -/
theorem Memory.write_spec {m m' : Memory} {addr v : Word} {n : Nat} (hw : m.wf = true)
    (h : m.write addr n v = some m') :
    addr.toNat + n ≤ m.len ∧ m'.wf = true ∧ m'.len = m.len
      ∧ ∀ x, m'.byte x
          = if addr.toNat ≤ x ∧ x < addr.toNat + n then bits (8 * (x - addr.toNat)) 8 v else m.byte x := by
  by_cases hb : addr.toNat + n ≤ m.len
  · rw [Memory.write_of_inBounds hb, Option.some.injEq] at h
    subst h
    have hl : addr.toNat + (leBytes n v).length ≤ m.len := by simpa using hb
    refine ⟨hb, Memory.wf_setBytes hw _ _ hl, by simp, fun x => ?_⟩
    rw [Memory.byte_setBytes hw _ _ hl]
    by_cases hx : addr.toNat ≤ x ∧ x < addr.toNat + n
    · rw [dif_pos (by simpa using hx), if_pos hx, getElem_leBytes]
    · rw [dif_neg (by simpa using hx), if_neg hx]
  · rw [(Memory.write_eq_none_iff m addr n v).2 (by omega)] at h
    cases h

/-- A read of the same bytes of two memories of one length answers the same. -/
theorem Memory.read_congr {m m' : Memory} (hl : m'.len = m.len) {addr : Word} {n : Nat}
    (h : ∀ k < n, m'.byte (addr.toNat + k) = m.byte (addr.toNat + k)) : m'.read addr n = m.read addr n := by
  have : m'.bytes addr.toNat n = m.bytes addr.toNat n := by
    apply List.ext_getElem?
    intro k
    rw [Memory.getElem?_bytes, Memory.getElem?_bytes]
    by_cases hk : k < n <;> simp [hk, h]
  simp [Memory.read, Memory.inBounds, hl, this]

end Sys2Proof.Machine
end

