-- ==== Sys2Proof/Laws/Registers.lean ====
section
/-! SUPPORT. Banks, and the register and mask accessors: a read after a write, and what a write leaves
alone (10_state.md R24, R25, R28, R29). -/

namespace Sys2Proof.Machine

/-! ### Banks -/

theorem Bank.get_set {n : Nat} {α : Type} (b : Bank n α) (i j : Fin n) (a : α) :
    (b.set i a).get j = if i = j then a else b.get j := by
  simp [Bank.get, Bank.set, List.getElem_set, Fin.ext_iff]

theorem Bank.get_fill {n : Nat} {α : Type} (a : α) (i : Fin n) : (Bank.fill n a).get i = a := by
  simp [Bank.get, Bank.fill]

/-- Two banks that agree everywhere are the same data. -/
theorem Bank.ext_get {n : Nat} {α : Type} {b c : Bank n α} (h : ∀ i, b.get i = c.get i) : b = c := by
  obtain ⟨xs, hx⟩ := b
  obtain ⟨ys, hy⟩ := c
  have : xs = ys := List.ext_getElem (hx.trans hy.symm) fun i hi _ => by
    simpa [Bank.get] using h ⟨i, hx ▸ hi⟩
  subst this
  rfl

/-! ### Registers -/

@[simp] theorem State.readReg_rf (s : State) (i : Nat) : s.readReg .rf i = 0 := rfl

@[simp] theorem State.readReg_rt (s : State) (i : Nat) : s.readReg .rt i = 0xFFFFFFFF := rfl

@[simp] theorem State.writeReg_rf (s : State) (i : Nat) (v : Word) : s.writeReg .rf i v = s := rfl

@[simp] theorem State.writeReg_rt (s : State) (i : Nat) (v : Word) : s.writeReg .rt i v = s := rfl

/-- A register write changes the registers only. -/
theorem State.writeReg_fields (s : State) (r : Reg) (i : Nat) (v : Word) :
    s.writeReg r i v = s.setRegs (s.writeReg r i v).regs := by
  cases r with
  | rf => rfl
  | rt => rfl
  | gpr n =>
    unfold State.writeReg
    by_cases h : i < Config.lanes <;> simp only [h, ↓reduceDIte] <;> rfl

@[simp] theorem State.mask_writeReg (s : State) (r : Reg) (i : Nat) (v : Word) :
    (s.writeReg r i v).mask = s.mask := by rw [State.writeReg_fields]; rfl
@[simp] theorem State.vlen_writeReg (s : State) (r : Reg) (i : Nat) (v : Word) :
    (s.writeReg r i v).vlen = s.vlen := by rw [State.writeReg_fields]; rfl
@[simp] theorem State.ip_writeReg (s : State) (r : Reg) (i : Nat) (v : Word) :
    (s.writeReg r i v).ip = s.ip := by rw [State.writeReg_fields]; rfl
@[simp] theorem State.sp_writeReg (s : State) (r : Reg) (i : Nat) (v : Word) :
    (s.writeReg r i v).sp = s.sp := by rw [State.writeReg_fields]; rfl
@[simp] theorem State.status_writeReg (s : State) (r : Reg) (i : Nat) (v : Word) :
    (s.writeReg r i v).status = s.status := by rw [State.writeReg_fields]; rfl
@[simp] theorem State.mem_writeReg (s : State) (r : Reg) (i : Nat) (v : Word) :
    (s.writeReg r i v).mem = s.mem := by rw [State.writeReg_fields]; rfl
@[simp] theorem State.readMask_writeReg (s : State) (r : Reg) (i j : Nat) (v : Word) :
    (s.writeReg r i v).readMask j = s.readMask j := by rw [State.writeReg_fields]; rfl

/-- A read after a write: the value if it is the register and the lane written, the register has storage
and the lane exists; otherwise what was there (10_state.md R24, R25). -/
theorem State.readReg_writeReg (s : State) (r q : Reg) (i j : Nat) (v : Word) :
    (s.writeReg r i v).readReg q j
      = if q = r ∧ j = i ∧ r.backed = true ∧ i < Config.lanes then v else s.readReg q j := by
  cases r with
  | rf => simp [Reg.backed]
  | rt => simp [Reg.backed]
  | gpr n =>
    by_cases hi : i < Config.lanes
    · cases q with
      | rf => simp
      | rt => simp
      | gpr m =>
        simp only [State.writeReg, hi, ↓reduceDIte, State.readReg, State.setRegs, Reg.backed, Bank.get_set,
          Reg.gpr.injEq, and_true]
        by_cases hj : j < Config.lanes
        · simp only [hj, ↓reduceDIte]
          by_cases hm : n = m
          · subst hm
            simp only [↓reduceIte, Bank.get_set, Fin.mk.injEq]
            by_cases h : i = j <;> simp [h, Ne.symm]
          · simp [hm, Ne.symm hm, eq_comm]
        · have : j ≠ i := fun h => hj (h ▸ hi)
          simp [hj, this]
    · simp [State.writeReg, hi]

/-! ### Mask -/

/-- A mask write changes the mask only. -/
theorem State.writeMask_fields (s : State) (i : Nat) (b : Bool) :
    s.writeMask i b = s.setMask (s.writeMask i b).mask := by
  unfold State.writeMask
  by_cases h : i < Config.lanes <;> simp only [h, ↓reduceDIte] <;> rfl

@[simp] theorem State.regs_writeMask (s : State) (i : Nat) (b : Bool) :
    (s.writeMask i b).regs = s.regs := by rw [State.writeMask_fields]; rfl
@[simp] theorem State.vlen_writeMask (s : State) (i : Nat) (b : Bool) :
    (s.writeMask i b).vlen = s.vlen := by rw [State.writeMask_fields]; rfl
@[simp] theorem State.ip_writeMask (s : State) (i : Nat) (b : Bool) :
    (s.writeMask i b).ip = s.ip := by rw [State.writeMask_fields]; rfl
@[simp] theorem State.sp_writeMask (s : State) (i : Nat) (b : Bool) :
    (s.writeMask i b).sp = s.sp := by rw [State.writeMask_fields]; rfl
@[simp] theorem State.status_writeMask (s : State) (i : Nat) (b : Bool) :
    (s.writeMask i b).status = s.status := by rw [State.writeMask_fields]; rfl
@[simp] theorem State.mem_writeMask (s : State) (i : Nat) (b : Bool) :
    (s.writeMask i b).mem = s.mem := by rw [State.writeMask_fields]; rfl
@[simp] theorem State.readReg_writeMask (s : State) (r : Reg) (i j : Nat) (b : Bool) :
    (s.writeMask i b).readReg r j = s.readReg r j := by rw [State.writeMask_fields]; rfl

/-- A mask read after a mask write (10_state.md R28, R29). -/
theorem State.readMask_writeMask (s : State) (i j : Nat) (b : Bool) :
    (s.writeMask i b).readMask j = if j = i ∧ i < Config.lanes then b else s.readMask j := by
  by_cases hi : i < Config.lanes
  · simp only [State.writeMask, hi, ↓reduceDIte, State.readMask, State.setMask, Bank.get_set, and_true]
    by_cases hj : j < Config.lanes
    · simp only [hj, ↓reduceDIte, Fin.mk.injEq]
      by_cases h : i = j <;> simp [h, Ne.symm]
    · have : j ≠ i := fun h => hj (h ▸ hi)
      simp [hj, this]
  · simp [State.writeMask, hi]

end Sys2Proof.Machine
end

