-- ==== Sys2Proof/Laws/Engine.lean ====
section
/-! SUPPORT. What the vector engine can do (40_execution_cycle.md R126, R127, R130, R131), once for every
body: an inversion for any property the body keeps, the closed form of a body that works lane by lane in
the registers, and that of the store; the lane bodies; the zero test; the lane loop of `maskset`. -/

namespace Sys2Proof.Machine

/-! ### The loop -/

/-- The lanes run from `s` to `t` and none faults. -/
def runsTo (body : Nat → State → Except FaultCause State) : List Nat → State → State → Prop
  | [], s, t => s = t
  | i :: rest, s, t =>
    if s.readMask i = true then ∃ u, body i s = .ok u ∧ runsTo body rest u t else runsTo body rest s t

/-- The lanes before a point that run without a fault may be taken off the loop. -/
theorem runLanes_append_of_runsTo {body : Nat → State → Except FaultCause State} {l : List Nat}
    (l' : List Nat) {s t : State} (h : runsTo body l s t) :
    runLanes body (l ++ l') s = runLanes body l' t := by
  induction l generalizing s with
  | nil => cases h; rfl
  | cons i l ih =>
    simp only [List.cons_append, runLanes]
    simp only [runsTo] at h
    by_cases hm : s.readMask i = true
    · simp only [hm, ↓reduceIte] at h ⊢
      obtain ⟨u, hu, h⟩ := h
      simp only [hu]
      exact ih h
    · simp only [hm] at h ⊢
      exact ih h

/-- A loop whose lanes run without a fault ends where they end. -/
theorem runLanes_of_runsTo {body : Nat → State → Except FaultCause State} {l : List Nat} {s t : State}
    (h : runsTo body l s t) : runLanes body l s = t := by
  simpa [runLanes] using runLanes_append_of_runsTo [] h

/-- Everything the loop can do, for a property every lane's success keeps: either it holds at the end, or it
held where some lane that was let through faulted, and the end is that state with the fault raised. -/
theorem runLanes_cases {body : Nat → State → Except FaultCause State} (P : State → Prop)
    (l : List Nat) (keep : ∀ i ∈ l, ∀ u v, P u → u.readMask i = true → body i u = .ok v → P v) {s : State}
    (hs : P s) :
    P (runLanes body l s)
      ∨ ∃ i ∈ l, ∃ u c, P u ∧ u.readMask i = true ∧ body i u = .error c
          ∧ runLanes body l s = raise c u := by
  induction l generalizing s with
  | nil => exact .inl hs
  | cons i l ih =>
    have ih' := @ih fun j hj => keep j (by simp [hj])
    simp only [runLanes]
    by_cases hm : s.readMask i = true
    · simp only [hm, ↓reduceIte]
      cases hb : body i s with
      | ok t =>
        refine (ih' (keep i (by simp) s t hs hm hb)).imp id ?_
        rintro ⟨j, hj, h⟩
        exact ⟨j, by simp [hj], h⟩
      | error c => exact .inr ⟨i, by simp, s, c, hs, hm, hb, rfl⟩
    · simp only [hm]
      refine (ih' hs).imp id ?_
      rintro ⟨j, hj, h⟩
      exact ⟨j, by simp [hj], h⟩

/-- A loop none of whose lanes is let through changes nothing (40_execution_cycle.md R129). -/
theorem runLanes_of_masked (body : Nat → State → Except FaultCause State) (l : List Nat) {s : State}
    (h : ∀ i ∈ l, s.readMask i = false) : runLanes body l s = s := by
  induction l with
  | nil => rfl
  | cons i l ih =>
    simp only [runLanes, h i (by simp), Bool.false_eq_true, ↓reduceIte]
    exact ih fun j hj => h j (by simp [hj])

/-- A vectorized instruction with no active lane changes nothing (40_execution_cycle.md R129). -/
theorem forActiveLanes_of_inactive (body : Nat → State → Except FaultCause State) {s : State}
    (h : ∀ i, s.laneActive i = false) : forActiveLanes body s = s := by
  refine runLanes_of_masked body _ fun i hi => ?_
  have hle := (s.mem_enabledLanes i).1 hi
  have := h i
  simpa [State.laneActive, State.laneEnabled, hle] using this

/-! ### Bodies that work lane by lane in the registers -/

/-- `t` differs from `s` in the registers only. -/
def OnlyRegs (s t : State) : Prop := t = s.setRegs t.regs

theorem OnlyRegs.rfl' (s : State) : OnlyRegs s s := rfl

theorem OnlyRegs.trans' {s t u : State} (h : OnlyRegs s t) (k : OnlyRegs t u) : OnlyRegs s u := by
  unfold OnlyRegs at *
  rw [k, h]
  rfl

theorem OnlyRegs.fields {s t : State} (h : OnlyRegs s t) :
    t.mask = s.mask ∧ t.vlen = s.vlen ∧ t.ip = s.ip ∧ t.sp = s.sp ∧ t.status = s.status
      ∧ t.mem = s.mem := by
  rw [h]
  exact ⟨rfl, rfl, rfl, rfl, rfl, rfl⟩

theorem OnlyRegs.readMask {s t : State} (h : OnlyRegs s t) (i : Nat) : t.readMask i = s.readMask i := by
  rw [h]
  rfl

theorem OnlyRegs.writeReg (s : State) (r : Reg) (i : Nat) (v : Word) : OnlyRegs s (s.writeReg r i v) :=
  State.writeReg_fields s r i v

/-- A body is lane-local from `s` with results `f` when, in lane `i`, from any state that differs from `s`
in the registers only and not in lane `i`, it gives lane `i` of each register `r` the value `f i r` and
changes nothing else. -/
def LaneLocal (body : Nat → State → Except FaultCause State) (s : State) (f : Nat → Reg → Word)
    (i : Nat) : Prop :=
  ∀ u, OnlyRegs s u → (∀ r, u.readReg r i = s.readReg r i) →
    ∃ v, body i u = .ok v ∧ OnlyRegs u v
      ∧ ∀ r j, v.readReg r j = if j = i then f i r else u.readReg r j

/-- The closed form of a lane-local loop, from a state in which the lanes still to come are untouched. -/
theorem runsTo_laneLocal {body : Nat → State → Except FaultCause State} {s : State}
    {f : Nat → Reg → Word} {l : List Nat} (hn : l.Nodup)
    (h : ∀ i ∈ l, s.readMask i = true → LaneLocal body s f i) {u : State} (hu : OnlyRegs s u)
    (hl : ∀ i ∈ l, ∀ r, u.readReg r i = s.readReg r i) :
    ∃ t, runsTo body l u t ∧ OnlyRegs s t
      ∧ ∀ r j, t.readReg r j = if j ∈ l ∧ s.readMask j = true then f j r else u.readReg r j := by
  induction l generalizing u with
  | nil => exact ⟨u, rfl, hu, fun r j => by simp⟩
  | cons i l ih =>
    obtain ⟨hil, hn⟩ := List.nodup_cons.1 hn
    have htail : ∀ j ∈ l, s.readMask j = true → LaneLocal body s f j := fun j hj => h j (by simp [hj])
    by_cases hm : s.readMask i = true
    · obtain ⟨v, hv, huv, hr⟩ := h i (by simp) hm u hu (hl i (by simp))
      have hlv : ∀ j ∈ l, ∀ r, v.readReg r j = s.readReg r j := fun j hj r => by
        have : j ≠ i := fun e => hil (e ▸ hj)
        rw [hr, if_neg this, hl j (by simp [hj])]
      obtain ⟨t, ht, hst, hrt⟩ := ih hn htail (hu.trans' huv) hlv
      refine ⟨t, ?_, hst, fun r j => ?_⟩
      · simp only [runsTo, hu.readMask, hm, ↓reduceIte]
        exact ⟨v, hv, ht⟩
      · rw [hrt, hr]
        by_cases hj : j = i
        · subst hj
          simp [hil, hm]
        · simp [hj]
    · obtain ⟨t, ht, hst, hrt⟩ := ih hn htail hu fun j hj => hl j (by simp [hj])
      refine ⟨t, ?_, hst, fun r j => ?_⟩
      · simp only [runsTo, hu.readMask, hm]
        exact ht
      · rw [hrt]
        by_cases hj : j = i
        · subst hj
          simp [hil, hm]
        · simp [hj]

/-- The closed form of a vectorized instruction whose body is lane-local in every active lane: each active
lane gets its result, nothing else changes (40_execution_cycle.md R127, R130). -/
theorem forActiveLanes_laneLocal {body : Nat → State → Except FaultCause State} {s : State}
    {f : Nat → Reg → Word} (h : ∀ i, s.laneActive i = true → LaneLocal body s f i) :
    OnlyRegs s (forActiveLanes body s)
      ∧ ∀ r j, (forActiveLanes body s).readReg r j
          = if s.laneActive j = true then f j r else s.readReg r j := by
  have hloc : ∀ i ∈ s.enabledLanes, s.readMask i = true → LaneLocal body s f i := fun i hi hm =>
    h i ((s.laneActive_iff i).2 ⟨(s.mem_enabledLanes i).1 hi, hm⟩)
  obtain ⟨t, ht, hst, hr⟩ :=
    runsTo_laneLocal (l := s.enabledLanes) List.nodup_range hloc (OnlyRegs.rfl' s) fun _ _ _ => rfl
  rw [forActiveLanes, runLanes_of_runsTo ht]
  refine ⟨hst, fun r j => ?_⟩
  rw [hr]
  exact if_congr (by rw [s.laneActive_iff, ← s.mem_enabledLanes]) rfl rfl

/-- The enabled lanes, cut at one of them. -/
theorem State.enabledLanes_split (s : State) {k : Nat} (hk : k ≤ s.vlen.toNat) :
    ∃ rest, s.enabledLanes = List.range k ++ k :: rest := by
  obtain ⟨m, hm⟩ : ∃ m, s.vlen.toNat + 1 = k + (m + 1) := ⟨s.vlen.toNat - k, by omega⟩
  refine ⟨(List.range m).map fun x => k + (x + 1), ?_⟩
  rw [State.enabledLanes, hm, List.range_add, List.range_succ_eq_map]
  simp

/-- The closed form of a vectorized instruction whose body is lane-local in the active lanes below `k` and
faults in the active lane `k` (40_execution_cycle.md R131): the lanes below have their results, the fault is
recorded, nothing else changes. -/
theorem forActiveLanes_laneLocal_fault {body : Nat → State → Except FaultCause State} {s : State}
    {f : Nat → Reg → Word} {k : Nat} {c : FaultCause} (hk : s.laneActive k = true)
    (h : ∀ i < k, s.laneActive i = true → LaneLocal body s f i)
    (hc : ∀ u, OnlyRegs s u → (∀ r, u.readReg r k = s.readReg r k) → body k u = .error c) :
    ∃ t, forActiveLanes body s = raise c t ∧ OnlyRegs s t
      ∧ ∀ r j, t.readReg r j
          = if j < k ∧ s.laneActive j = true then f j r else s.readReg r j := by
  obtain ⟨hkv, hkm⟩ := (s.laneActive_iff k).1 hk
  obtain ⟨rest, hsplit⟩ := s.enabledLanes_split hkv
  have hloc : ∀ i ∈ List.range k, s.readMask i = true → LaneLocal body s f i := fun i hi hm => by
    have hik := List.mem_range.1 hi
    exact h i hik ((s.laneActive_iff i).2 ⟨by omega, hm⟩)
  obtain ⟨t, ht, hst, hr⟩ :=
    runsTo_laneLocal (List.nodup_range) hloc (OnlyRegs.rfl' s) fun _ _ _ => rfl
  have hkt : ∀ r, t.readReg r k = s.readReg r k := fun r => by simp [hr]
  refine ⟨t, ?_, hst, fun r j => ?_⟩
  · rw [forActiveLanes, hsplit, runLanes_append_of_runsTo _ ht]
    simp only [runLanes, hst.readMask, hkm, ↓reduceIte, hc t hst hkt]
  · rw [hr]
    refine if_congr ?_ rfl rfl
    rw [List.mem_range, s.laneActive_iff]
    constructor
    · rintro ⟨hjk, hm⟩
      exact ⟨hjk, by omega, hm⟩
    · rintro ⟨hjk, _, hm⟩
      exact ⟨hjk, hm⟩

/-! ### The lane bodies -/

/-- One lane of a copy is lane-local. -/
theorem copyLane_laneLocal (half : Word → BitVec 16 → Word) (dst : Reg) (value : BitVec 16) (s : State)
    {i : Nat} (hi : i < Config.lanes) :
    LaneLocal (copyLane half dst value) s
      (fun i r => if r = dst ∧ dst.backed = true then half (s.readReg dst i) value else s.readReg r i) i := by
  intro u _ hlane
  refine ⟨_, rfl, OnlyRegs.writeReg _ _ _ _, fun r j => ?_⟩
  rw [State.readReg_writeReg, hlane]
  by_cases hj : j = i
  · subst hj
    simp [hi, hlane]
  · simp [hj]

/-- One lane of a load in bounds is lane-local: the register gets the value the start memory holds. -/
theorem loadLane_laneLocal {reg ptr : Reg} {n : Nat} {s : State} {i : Nat} (hi : i < Config.lanes)
    (hb : (s.readReg ptr i).toNat + n ≤ s.mem.len) :
    LaneLocal (loadLane reg ptr n) s
      (fun i r => if r = reg ∧ reg.backed = true
        then leWord (s.mem.bytes (s.readReg ptr i).toNat n) else s.readReg r i) i := by
  intro u hu hlane
  have hmem : u.mem = s.mem := hu.fields.2.2.2.2.2
  refine ⟨u.writeReg reg i (leWord (s.mem.bytes (s.readReg ptr i).toNat n)), ?_,
    OnlyRegs.writeReg _ _ _ _, fun r j => ?_⟩
  · simp [loadLane, effectiveAddress, hlane, hmem, Memory.read_of_inBounds hb]
  · rw [State.readReg_writeReg]
    by_cases hj : j = i
    · subst hj
      simp [hi, hlane]
    · simp [hj]

/-- One lane of a load out of bounds faults, whatever lanes before it did to the registers. -/
theorem loadLane_fault {reg ptr : Reg} {n : Nat} {s u : State} {i : Nat} (hu : OnlyRegs s u)
    (hlane : ∀ r, u.readReg r i = s.readReg r i) (hb : s.mem.len < (s.readReg ptr i).toNat + n) :
    loadLane reg ptr n i u = .error (.memoryOutOfBounds (s.readReg ptr i) n i) := by
  have hmem : u.mem = s.mem := hu.fields.2.2.2.2.2
  simp [loadLane, effectiveAddress, hlane, hmem, (Memory.read_eq_none_iff _ _ _).2 hb]

/-- What the writes of one `arith` lane leave in that lane (43_arith.md R171, R172, R175): the remainder, if
there is one, in `rem`; else the primary result in `dst`. -/
def arithLaneResult (o : ArithOperands) (x : AluResult) (old : Reg → Word) (r : Reg) : Word :=
  match x.remainder with
  | none => if r = o.dst ∧ o.dst.backed = true then complementIf o.negateDst x.primary else old r
  | some m =>
    if r = o.rem ∧ o.rem.backed = true then complementIf o.negateRem m
    else if r = o.dst ∧ o.dst.backed = true then complementIf o.negateDst x.primary
    else old r

/-- One lane of `arith` is lane-local. -/
theorem arithLane_laneLocal (alu : Word → Word → AluResult) (o : ArithOperands) (s : State) {i : Nat}
    (hi : i < Config.lanes) :
    LaneLocal (arithLane alu o) s
      (fun i => arithLaneResult o (alu (operand o.lhs o.negateLhs i s) (operand o.rhs o.negateRhs i s))
        (s.readReg · i)) i := by
  intro u _ hlane
  have ha : ∀ r b, operand r b i u = operand r b i s := fun r b => by simp [operand, hlane]
  simp only [arithLane, ha]
  generalize alu (operand o.lhs o.negateLhs i s) (operand o.rhs o.negateRhs i s) = x
  obtain ⟨p, m⟩ := x
  cases m with
  | none =>
    refine ⟨_, rfl, OnlyRegs.writeReg _ _ _ _, fun r j => ?_⟩
    simp only [writeResult, arithLaneResult, State.readReg_writeReg, hi]
    by_cases hj : j = i
    · subst hj
      simp [hlane]
    · simp [hj]
  | some q =>
    refine ⟨_, rfl, (OnlyRegs.writeReg _ _ _ _).trans' (OnlyRegs.writeReg _ _ _ _), fun r j => ?_⟩
    simp only [writeResult, arithLaneResult, State.readReg_writeReg, hi]
    by_cases hj : j = i
    · subst hj
      simp [hlane]
    · simp [hj]

/-! ### The store -/

/-- `t` differs from `s` in the memory only. -/
def OnlyMem (s t : State) : Prop := t = s.setMem t.mem

theorem OnlyMem.rfl' (s : State) : OnlyMem s s := rfl

theorem OnlyMem.trans' {s t u : State} (h : OnlyMem s t) (k : OnlyMem t u) : OnlyMem s u := by
  unfold OnlyMem at *
  rw [k, h]
  rfl

theorem OnlyMem.fields {s t : State} (h : OnlyMem s t) :
    t.regs = s.regs ∧ t.mask = s.mask ∧ t.vlen = s.vlen ∧ t.ip = s.ip ∧ t.sp = s.sp
      ∧ t.status = s.status := by
  rw [h]
  exact ⟨rfl, rfl, rfl, rfl, rfl, rfl⟩

theorem OnlyMem.readReg {s t : State} (h : OnlyMem s t) (r : Reg) (i : Nat) :
    t.readReg r i = s.readReg r i := by
  rw [h]
  rfl

theorem OnlyMem.readMask {s t : State} (h : OnlyMem s t) (i : Nat) : t.readMask i = s.readMask i := by
  rw [h]
  rfl

/-- Lane `i` of a transfer of `n` bytes through `ptr` covers address `x`. -/
def covers (ptr : Reg) (n : Nat) (s : State) (i x : Nat) : Prop :=
  (s.readReg ptr i).toNat ≤ x ∧ x < (s.readReg ptr i).toNat + n

/-- One lane of a store, everything it can do. -/
theorem storeLane_spec {reg ptr : Reg} {n i : Nat} {u v : State} (hw : u.mem.wf = true)
    (h : storeLane reg ptr n i u = .ok v) :
    OnlyMem u v ∧ (u.readReg ptr i).toNat + n ≤ u.mem.len ∧ v.mem.wf = true ∧ v.mem.len = u.mem.len
      ∧ ∀ x, v.mem.byte x
          = if (u.readReg ptr i).toNat ≤ x ∧ x < (u.readReg ptr i).toNat + n
            then bits (8 * (x - (u.readReg ptr i).toNat)) 8 (u.readReg reg i) else u.mem.byte x := by
  unfold storeLane at h
  split at h
  · rename_i m hm
    simp only [Except.ok.injEq] at h
    subst h
    obtain ⟨hb, hwf, hl, hx⟩ := Memory.write_spec hw hm
    exact ⟨rfl, hb, hwf, hl, hx⟩
  · cases h

/-- The closed form of the store loop over ascending lanes whose accesses are all in bounds: each byte holds
what the highest lane that covers it wrote, every other byte what it held (20_memory.md R64). -/
theorem runsTo_store {reg ptr : Reg} {n : Nat} {s : State} {l : List Nat} (hl : l.Pairwise (· < ·))
    (hb : ∀ i ∈ l, s.readMask i = true → (s.readReg ptr i).toNat + n ≤ s.mem.len) {u : State}
    (hu : OnlyMem s u) (hw : u.mem.wf = true) (hul : u.mem.len = s.mem.len) :
    ∃ t, runsTo (storeLane reg ptr n) l u t ∧ OnlyMem s t ∧ t.mem.wf = true ∧ t.mem.len = s.mem.len
      ∧ (∀ x i, i ∈ l → s.readMask i = true → covers ptr n s i x →
          (∀ j ∈ l, i < j → s.readMask j = true → ¬ covers ptr n s j x) →
          t.mem.byte x = bits (8 * (x - (s.readReg ptr i).toNat)) 8 (s.readReg reg i))
      ∧ ∀ x, (∀ i ∈ l, s.readMask i = true → ¬ covers ptr n s i x) → t.mem.byte x = u.mem.byte x := by
  induction l generalizing u with
  | nil => exact ⟨u, rfl, hu, hw, hul, fun x i hi => by simp at hi, fun x _ => rfl⟩
  | cons i l ih =>
    obtain ⟨hlt, hp⟩ := List.pairwise_cons.1 hl
    have hbt : ∀ j ∈ l, s.readMask j = true → (s.readReg ptr j).toNat + n ≤ s.mem.len :=
      fun j hj => hb j (by simp [hj])
    by_cases hm : s.readMask i = true
    · have hbi := hb i (by simp) hm
      obtain ⟨v, hv⟩ : ∃ v, storeLane reg ptr n i u = .ok v := by
        simp only [storeLane, effectiveAddress, hu.readReg, Memory.write_of_inBounds (hul.symm ▸ hbi)]
        exact ⟨_, rfl⟩
      obtain ⟨huv, -, hvw, hvl, hvx⟩ := storeLane_spec hw hv
      simp only [hu.readReg] at hvx
      obtain ⟨t, ht, hst, htw, htl, hcov, hfree⟩ :=
        ih hp hbt (hu.trans' huv) hvw (hvl.trans hul)
      refine ⟨t, ?_, hst, htw, htl, fun x k hk hkm hkx hlast => ?_, fun x hx => ?_⟩
      · simp only [runsTo, hu.readMask, hm, ↓reduceIte]
        exact ⟨v, hv, ht⟩
      · rcases List.mem_cons.1 hk with rfl | hk
        · rw [hfree x fun j hj hjm => hlast j (by simp [hj]) (hlt j hj) hjm, hvx]
          exact if_pos hkx
        · exact hcov x k hk hkm hkx fun j hj => hlast j (by simp [hj])
      · rw [hfree x fun j hj => hx j (by simp [hj]), hvx]
        exact if_neg (hx i (by simp) hm)
    · obtain ⟨t, ht, hst, htw, htl, hcov, hfree⟩ := ih hp hbt hu hw hul
      refine ⟨t, ?_, hst, htw, htl, fun x k hk hkm hkx hlast => ?_, fun x hx => ?_⟩
      · simp only [runsTo, hu.readMask, hm]
        exact ht
      · rcases List.mem_cons.1 hk with rfl | hk
        · exact absurd hkm hm
        · exact hcov x k hk hkm hkx fun j hj => hlast j (by simp [hj])
      · exact hfree x fun j hj => hx j (by simp [hj])

/-- One lane of a store out of bounds faults, whatever lanes before it did to the memory. -/
theorem storeLane_fault {reg ptr : Reg} {n i : Nat} {s u : State} (hu : OnlyMem s u)
    (hul : u.mem.len = s.mem.len) (hb : s.mem.len < (s.readReg ptr i).toNat + n) :
    storeLane reg ptr n i u = .error (.memoryOutOfBounds (s.readReg ptr i) n i) := by
  simp [storeLane, effectiveAddress, hu.readReg, (Memory.write_eq_none_iff _ _ _ _).2 (hul ▸ hb)]

/-! ### Conditions -/

/-- The zero test: every active lane of `flag` reads as zero (44_control.md R202). -/
theorem zeroTest_iff (flag : Reg) (s : State) :
    zeroTest flag s = true ↔ ∀ i, s.laneActive i = true → s.readReg flag i = 0 := by
  simp only [zeroTest, zeroTestWith, branchTestUsesMask, laneTruth, List.all_eq_true, State.mem_enabledLanes,
    State.laneActive_iff, Bool.or_eq_true, Bool.and_eq_true, Bool.not_eq_true', true_and,
    bne_eq_false_iff_eq]
  constructor
  · rintro h i ⟨hv, hm⟩
    rcases h i hv with h | h
    · simp [hm] at h
    · exact h
  · intro h i hv
    cases hm : s.readMask i with
    | false => exact .inl rfl
    | true => exact .inr (h i ⟨hv, hm⟩)

/-- `maskset`'s loop changes the mask only. -/
theorem maskLanes_fields (src : Reg) (l : List Nat) (s : State) :
    maskLanes src l s = s.setMask (maskLanes src l s).mask := by
  induction l generalizing s with
  | nil => rfl
  | cons i l ih =>
    simp only [maskLanes]
    rw [ih, State.writeMask_fields]
    rfl

/-- `maskset`'s loop, mask bit by mask bit (41_vlenset_maskset.md R142). -/
theorem readMask_maskLanes (src : Reg) (l : List Nat) (hl : ∀ i ∈ l, i < Config.lanes) (s : State)
    (j : Nat) :
    (maskLanes src l s).readMask j = if j ∈ l then laneTruth (s.readReg src j) else s.readMask j := by
  induction l generalizing s with
  | nil => rfl
  | cons i l ih =>
    simp only [maskLanes]
    rw [ih fun k hk => hl k (by simp [hk])]
    simp only [State.readReg_writeMask, State.readMask_writeMask, hl i (by simp), and_true, List.mem_cons]
    by_cases h1 : j ∈ l
    · simp [h1]
    · by_cases h2 : j = i
      · subst h2
        simp [h1]
      · simp [h1, h2]

end Sys2Proof.Machine
end

