-- ==== Sys2Proof/Laws/Agree.lean ====
section
/-! SUPPORT. Two states that agree in everything but some lanes of the registers, and that the vector engine
keeps them so (40_execution_cycle.md R127): once for every body, then for each body. -/

namespace Sys2Proof.Machine

/-- The states agree in everything but the register lanes outside `A`. -/
structure Agree (A : Nat → Bool) (s u : State) : Prop where
  mask : u.mask = s.mask
  vlen : u.vlen = s.vlen
  ip : u.ip = s.ip
  sp : u.sp = s.sp
  status : u.status = s.status
  mem : u.mem = s.mem
  reg : ∀ r j, A j = true → u.readReg r j = s.readReg r j

theorem Agree.setStatus {A : Nat → Bool} {s u : State} (h : Agree A s u) (x : Status) :
    Agree A (s.setStatus x) (u.setStatus x) := ⟨h.mask, h.vlen, h.ip, h.sp, rfl, h.mem, h.reg⟩

theorem Agree.setMem {A : Nat → Bool} {s u : State} (h : Agree A s u) (x : Memory) :
    Agree A (s.setMem x) (u.setMem x) := ⟨h.mask, h.vlen, h.ip, h.sp, h.status, rfl, h.reg⟩

theorem Agree.writeReg {A : Nat → Bool} {s u : State} (h : Agree A s u) (r : Reg) (i : Nat) (v : Word) :
    Agree A (s.writeReg r i v) (u.writeReg r i v) where
  mask := by simp [h.mask]
  vlen := by simp [h.vlen]
  ip := by simp [h.ip]
  sp := by simp [h.sp]
  status := by simp [h.status]
  mem := by simp [h.mem]
  reg q j hj := by simp only [State.readReg_writeReg, h.reg q j hj]

/-- A body that keeps agreement in a lane of `A`: from states that agree it faults alike or goes on to states
that agree, and it changes no mask bit and no register lane but its own. -/
def KeepsAgree (A : Nat → Bool) (body : Nat → State → Except FaultCause State) : Prop :=
  ∀ i s u, A i = true → Agree A s u →
    (∃ c, body i s = .error c ∧ body i u = .error c)
      ∨ ∃ t v, body i s = .ok t ∧ body i u = .ok v ∧ Agree A t v ∧ t.mask = s.mask
          ∧ ∀ r j, j ≠ i → t.readReg r j = s.readReg r j

/-- The loop keeps agreement, and changes no register lane outside `A`. -/
theorem runLanes_agree {A : Nat → Bool} {body : Nat → State → Except FaultCause State}
    (hb : KeepsAgree A body) (l : List Nat) {s u : State} (h : Agree A s u)
    (hA : ∀ i ∈ l, s.readMask i = true → A i = true) :
    Agree A (runLanes body l s) (runLanes body l u)
      ∧ ∀ r j, A j = false → (runLanes body l s).readReg r j = s.readReg r j := by
  induction l generalizing s u with
  | nil => exact ⟨h, fun _ _ _ => rfl⟩
  | cons i l ih =>
    have hu : u.readMask i = s.readMask i := by simp [State.readMask, h.mask]
    simp only [runLanes, hu]
    by_cases hm : s.readMask i = true
    · have hi := hA i (by simp) hm
      simp only [hm, ↓reduceIte]
      rcases hb i s u hi h with ⟨c, h1, h2⟩ | ⟨t, v, h1, h2, h3, h4, h5⟩
      · simp only [h1, h2]
        exact ⟨h.setStatus _, fun _ _ _ => rfl⟩
      · simp only [h1, h2]
        have hl := ih h3 fun j hj hjm => hA j (by simp [hj]) (by simpa [State.readMask, h4] using hjm)
        refine ⟨hl.1, fun r j hj => (hl.2 r j hj).trans (h5 r j fun e => ?_)⟩
        rw [e, hi] at hj
        cases hj
    · simp only [hm]
      exact ih h fun j hj => hA j (by simp [hj])

theorem loadLane_keepsAgree (A : Nat → Bool) (reg ptr : Reg) (n : Nat) :
    KeepsAgree A (loadLane reg ptr n) := by
  intro i s u hi h
  simp only [loadLane, effectiveAddress, h.reg ptr i hi, h.mem]
  cases s.mem.read (s.readReg ptr i) n with
  | none => exact .inl ⟨_, rfl, rfl⟩
  | some w =>
    exact .inr ⟨_, _, rfl, rfl, h.writeReg _ _ _, by simp, fun q j hj => by simp [State.readReg_writeReg, hj]⟩

theorem storeLane_keepsAgree (A : Nat → Bool) (reg ptr : Reg) (n : Nat) :
    KeepsAgree A (storeLane reg ptr n) := by
  intro i s u hi h
  simp only [storeLane, effectiveAddress, h.reg ptr i hi, h.reg reg i hi, h.mem]
  cases s.mem.write (s.readReg ptr i) n (s.readReg reg i) with
  | none => exact .inl ⟨_, rfl, rfl⟩
  | some m => exact .inr ⟨_, _, rfl, rfl, h.setMem _, rfl, fun _ _ _ => rfl⟩

theorem copyLane_keepsAgree (A : Nat → Bool) (half : Word → BitVec 16 → Word) (dst : Reg) (value : BitVec 16) :
    KeepsAgree A (copyLane half dst value) := by
  intro i s u hi h
  simp only [copyLane, h.reg dst i hi]
  exact .inr ⟨_, _, rfl, rfl, h.writeReg _ _ _, by simp, fun q j hj => by simp [State.readReg_writeReg, hj]⟩

theorem arithLane_keepsAgree (A : Nat → Bool) (alu : Word → Word → AluResult) (o : ArithOperands) :
    KeepsAgree A (arithLane alu o) := by
  intro i s u hi h
  simp only [arithLane, operand, h.reg o.lhs i hi, h.reg o.rhs i hi, writeResult]
  generalize alu _ _ = x
  refine .inr ⟨_, _, rfl, rfl, ?_⟩
  cases x.remainder with
  | none => exact ⟨h.writeReg _ _ _, by simp, fun q j hj => by simp [State.readReg_writeReg, hj]⟩
  | some y =>
    exact ⟨(h.writeReg _ _ _).writeReg _ _ _, by simp, fun q j hj => by simp [State.readReg_writeReg, hj]⟩

end Sys2Proof.Machine
end

