-- ==== Sys2Proof/Laws/Encoding.lean ====
section
/-! SUPPORT. Reading a field of a word built from fields (30_encoding.md R81), and the register names
(R94). -/

namespace Sys2Proof

/-! ### Reading fields of fields -/

@[simp] theorem bits_or (lo n : Nat) (a b : Word) : bits lo n (a ||| b) = bits lo n a ||| bits lo n b := by
  apply BitVec.eq_of_getLsbD_eq
  intro j hj
  simp [bits, hj]

@[simp] theorem bit_or (k : Nat) (a b : Word) : bit k (a ||| b) = (bit k a || bit k b) := by
  simp [bit]

/-- A bit of a field: 0 outside it. -/
theorem getLsbD_field {n : Nat} (lo : Nat) (v : BitVec n) (j : Nat) :
    (field lo v).getLsbD j = (decide (j < 32) && decide (lo ≤ j) && v.getLsbD (j - lo)) := by
  by_cases h : j < 32
  · by_cases hl : lo ≤ j
    · simp [field, h, hl]
    · simp [field, h, hl]
  · simp [field, h]

/-- A field that lies inside the word reads back as it was put. -/
theorem bits_field_same {n : Nat} (lo : Nat) (v : BitVec n) (h : lo + n ≤ 32) :
    bits lo n (field lo v) = v := by
  apply BitVec.eq_of_getLsbD_eq
  intro j hj
  simp only [bits, BitVec.getLsbD_extractLsb', getLsbD_field, hj, decide_true, Bool.true_and]
  simp [show lo + j < 32 by omega]

/-- A field reads as 0 at bits that are not its own. -/
theorem bits_field_apart {n : Nat} (lo' lo m : Nat) (v : BitVec n) (h : lo + n ≤ lo' ∨ lo' + m ≤ lo) :
    bits lo' m (field lo v) = 0 := by
  apply BitVec.eq_of_getLsbD_eq
  intro j hj
  rcases h with h | h
  · have : v.getLsbD (lo' + j - lo) = false := BitVec.getLsbD_of_ge _ _ (by omega)
    simp [bits, getLsbD_field, this]
  · simp [bits, getLsbD_field, show ¬ lo ≤ lo' + j by omega]

/-- A flag reads back as it was put. -/
theorem bit_flagField_same (k : Nat) (b : Bool) (h : k < 32) : bit k (flagField k b) = b := by
  simp only [bit, flagField, getLsbD_field, h, decide_true, Nat.le_refl, Nat.sub_self, Bool.true_and]
  cases b <;> rfl

/-- A bit reads as 0 in a field it does not belong to. -/
theorem bit_field_apart {n : Nat} (k lo : Nat) (v : BitVec n) (h : lo + n ≤ k ∨ k < lo) :
    bit k (field lo v) = false := by
  rcases h with h | h
  · simp [bit, getLsbD_field, BitVec.getLsbD_of_ge v (k - lo) (by omega)]
  · simp [bit, getLsbD_field, show ¬ lo ≤ k by omega]

/-- A field under a mask is the field of what the mask leaves of it. -/
theorem field_and {n : Nat} (lo : Nat) (v : BitVec n) (m : Word) :
    field lo v &&& m = field lo (v &&& bits lo n m) := by
  apply BitVec.eq_of_getLsbD_eq
  intro j hj
  simp only [BitVec.getLsbD_and, getLsbD_field, hj, decide_true, Bool.true_and]
  by_cases hl : lo ≤ j
  · by_cases hn : j - lo < n
    · simp only [bits, BitVec.getLsbD_extractLsb', hn, decide_true, Bool.true_and, hl,
        show lo + (j - lo) = j by omega]
    · simp [BitVec.getLsbD_of_ge v (j - lo) (by omega)]
  · simp [hl]

@[simp] theorem field_zero (n lo : Nat) : field lo 0#n = 0 := by
  simp [field]

/-! ### Words and their fields -/

/-- A field of a masked word. -/
theorem bits_and (lo n : Nat) (a b : Word) : bits lo n (a &&& b) = bits lo n a &&& bits lo n b := by
  apply BitVec.eq_of_getLsbD_eq
  intro j hj
  simp [bits, hj]

/-- A field that a mask covers is known from the masked word. -/
theorem bits_eq_of_and {lo n : Nat} {w m p : Word} (h : w &&& m = p) (hm : bits lo n m = BitVec.allOnes n) :
    bits lo n w = bits lo n p := by
  rw [← h, bits_and, hm]
  simp

/-- A bit that a mask covers is known from the masked word. -/
theorem bit_eq_of_and {k : Nat} {w m p : Word} (h : w &&& m = p) (hm : bit k m = true) :
    bit k w = bit k p := by
  have hk : m.getLsbD k = true := hm
  simp [← h, bit, hk]

/-- Putting a field back where it was read keeps those bits of the word and clears the others. -/
theorem field_bits (lo n : Nat) (w : Word) :
    field lo (bits lo n w) = w &&& field lo (BitVec.allOnes n) := by
  apply BitVec.eq_of_getLsbD_eq
  intro j hj
  simp only [getLsbD_field, BitVec.getLsbD_and, hj, decide_true, Bool.true_and, bits,
    BitVec.getLsbD_extractLsb', BitVec.getLsbD_allOnes]
  by_cases hl : lo ≤ j
  · simp only [hl, decide_true, Bool.true_and, show lo + (j - lo) = j by omega]
    exact Bool.and_comm _ _
  · simp [hl]

/-- A flag is a field of one bit. -/
theorem ofBool_bit (k : Nat) (w : Word) : BitVec.ofBool (bit k w) = bits k 1 w := by
  apply BitVec.eq_of_getLsbD_eq
  intro j hj
  obtain rfl : j = 0 := by omega
  simp [bits, bit]

/-- Putting a flag back where it was read keeps that bit of the word and clears the others. -/
theorem flagField_bit (k : Nat) (w : Word) :
    flagField k (bit k w) = w &&& field k (BitVec.allOnes 1) := by
  rw [flagField, ofBool_bit, field_bits]

/-- Two masks over one word. -/
theorem and_or_and (w a b : Word) : (w &&& a) ||| (w &&& b) = w &&& (a ||| b) := by
  apply BitVec.eq_of_getLsbD_eq
  intro j _
  simp [Bool.and_or_distrib_left]

/-! ### Register names -/

@[simp] theorem regOfBits_regBits (r : Reg) : regOfBits (regBits r) = r := by
  cases r with
  | rf => rfl
  | rt => rfl
  | gpr n =>
    obtain ⟨k, hk⟩ := n
    have hk' : k < 14 := hk
    have hm : k % 2 ^ 4 = k := Nat.mod_eq_of_lt (by omega)
    have h : (BitVec.ofNat 4 k).toNat = k := by rw [BitVec.toNat_ofNat, hm]
    simp only [regBits, regOfBits, h, hk, ↓reduceDIte]

@[simp] theorem regBits_regOfBits (b : BitVec 4) : regBits (regOfBits b) = b := by
  revert b
  decide

end Sys2Proof
end

