-- ==== Sys2Proof/Laws/PerInstr.lean ====
section
/-! SUPPORT. Statements made once per instruction: the canonical word of a well-formed instruction is a
word of the instruction's own row of the opcode table (30_encoding.md R90, R91). -/

namespace Sys2Proof.Laws.EncodesIntoRow

/-- The canonical word selects the instruction's row. -/
def Statement (i : Instr) : Prop :=
  i.wf = true → i.row.selects (encode i) = true

/-- A mask over a union of fields. -/
theorem or_and (a b m : Word) : (a ||| b) &&& m = (a &&& m) ||| (b &&& m) := by
  apply BitVec.eq_of_getLsbD_eq
  intro j _
  simp [Bool.and_or_distrib_right]

/-- A field the mask does not reach is gone under it. -/
theorem field_and_apart {n : Nat} (lo : Nat) (v : BitVec n) (m : Word)
    (hm : bits lo n m = 0) : field lo v &&& m = 0 := by
  rw [field_and lo v m, hm]
  simp

/-- A flag the mask does not reach is gone under it. -/
theorem flagField_and_apart (k : Nat) (b : Bool) (m : Word) (hm : bits k 1 m = 0) :
    flagField k b &&& m = 0 :=
  field_and_apart k _ m hm

/-- What the row mask of `arith` leaves of its canonical word: the tag and the operation. -/
theorem encodeArith_and_mask (op : BitVec 3) (h : Bool) (o : ArithOperands) :
    encodeArith op h o &&& 0x0F00000F
      = (field 0 opcArith &&& 0x0F00000F) ||| (flagField 24 h &&& 0x0F00000F)
        ||| (field 25 op &&& 0x0F00000F) := by
  simp only [encodeArith, or_and]
  rw [field_and_apart 4 (regBits o.dst) 0x0F00000F (by decide),
    field_and_apart 8 (regBits o.lhs) 0x0F00000F (by decide),
    field_and_apart 12 (regBits o.rhs) 0x0F00000F (by decide),
    field_and_apart 16 (regBits o.rem) 0x0F00000F (by decide),
    flagField_and_apart 20 o.negateDst 0x0F00000F (by decide),
    flagField_and_apart 21 o.negateLhs 0x0F00000F (by decide),
    flagField_and_apart 22 o.negateRhs 0x0F00000F (by decide),
    flagField_and_apart 23 o.negateRem 0x0F00000F (by decide)]
  simp

theorem vlenset (v : BitVec 8) : Statement (.vlenset v) := by
  intro _
  simp only [OpcodeRow.selects, encode, Instr.row, or_and]
  rw [field_and_apart 4 v 0x0000000F (by decide)]
  decide

theorem maskset (r : Reg) : Statement (.maskset r) := by
  intro _
  simp only [OpcodeRow.selects, encode, Instr.row, or_and]
  rw [field_and_apart 4 (regBits r) 0x0000000F (by decide)]
  decide

theorem memoryLoad (r : Reg) (p : Reg) (c : BitVec 2) : Statement (.memoryLoad r p c) := by
  intro _
  simp only [OpcodeRow.selects, encode, Instr.row, encodeMemory, or_and]
  rw [field_and_apart 4 (regBits r) 0x0002000F (by decide),
    field_and_apart 8 (regBits p) 0x0002000F (by decide),
    field_and_apart 18 c 0x0002000F (by decide)]
  decide

theorem memoryStore (r : Reg) (p : Reg) (c : BitVec 2) : Statement (.memoryStore r p c) := by
  intro _
  simp only [OpcodeRow.selects, encode, Instr.row, encodeMemory, or_and]
  rw [field_and_apart 4 (regBits r) 0x0002000F (by decide),
    field_and_apart 8 (regBits p) 0x0002000F (by decide),
    field_and_apart 18 c 0x0002000F (by decide)]
  decide

theorem copyLower (r : Reg) (v : BitVec 16) : Statement (.copyLower r v) := by
  intro _
  simp only [OpcodeRow.selects, encode, Instr.row, encodeCopy, or_and]
  rw [field_and_apart 4 (regBits r) 0x0000080F (by decide),
    field_and_apart 12 v 0x0000080F (by decide)]
  decide

theorem copyUpper (r : Reg) (v : BitVec 16) : Statement (.copyUpper r v) := by
  intro _
  simp only [OpcodeRow.selects, encode, Instr.row, encodeCopy, or_and]
  rw [field_and_apart 4 (regBits r) 0x0000080F (by decide),
    field_and_apart 12 v 0x0000080F (by decide)]
  decide

theorem arithAdd (o : ArithOperands) : Statement (.arithAdd o) := by
  intro _
  simp only [OpcodeRow.selects, encode, Instr.row, encodeArith_and_mask]
  decide

theorem arithSub (o : ArithOperands) : Statement (.arithSub o) := by
  intro _
  simp only [OpcodeRow.selects, encode, Instr.row, encodeArith_and_mask]
  decide

theorem arithMul (o : ArithOperands) : Statement (.arithMul o) := by
  intro _
  simp only [OpcodeRow.selects, encode, Instr.row, encodeArith_and_mask]
  decide

theorem arithDiv (o : ArithOperands) : Statement (.arithDiv o) := by
  intro _
  simp only [OpcodeRow.selects, encode, Instr.row, encodeArith_and_mask]
  decide

theorem arithAnd (o : ArithOperands) : Statement (.arithAnd o) := by
  intro _
  simp only [OpcodeRow.selects, encode, Instr.row, encodeArith_and_mask]
  decide

theorem arithXor (o : ArithOperands) : Statement (.arithXor o) := by
  intro _
  simp only [OpcodeRow.selects, encode, Instr.row, encodeArith_and_mask]
  decide

theorem jz (r : Reg) (o : BitVec 16) : Statement (.jz r o) := by
  intro _
  simp only [OpcodeRow.selects, encode, Instr.row, or_and]
  rw [field_and_apart 4 (regBits r) 0x0000000F (by decide),
    field_and_apart 12 o 0x0000000F (by decide)]
  decide

theorem bz (r : Reg) (b : Bool) (o : BitVec 16) : Statement (.bz r b o) := by
  intro _
  simp only [OpcodeRow.selects, encode, Instr.row, or_and]
  rw [field_and_apart 4 (regBits r) 0x0000000F (by decide),
    field_and_apart 12 o 0x0000000F (by decide),
    flagField_and_apart 11 b 0x0000000F (by decide)]
  decide

theorem ret : Statement (.ret) := by
  intro _
  simp only [OpcodeRow.selects, encode, Instr.row]
  decide

theorem inter (n : BitVec 16) : Statement (.inter n) := by
  intro _
  simp only [OpcodeRow.selects, encode, Instr.row, or_and]
  rw [field_and_apart 4 n 0x0000000F (by decide)]
  decide

theorem illegalArithHorizontalOp0 (o : ArithOperands) : Statement (.illegalArithHorizontalOp0 o) := by
  intro _
  simp only [OpcodeRow.selects, encode, Instr.row, encodeArith_and_mask]
  decide

theorem illegalArithHorizontalOp1 (o : ArithOperands) : Statement (.illegalArithHorizontalOp1 o) := by
  intro _
  simp only [OpcodeRow.selects, encode, Instr.row, encodeArith_and_mask]
  decide

theorem illegalArithHorizontalOp2 (o : ArithOperands) : Statement (.illegalArithHorizontalOp2 o) := by
  intro _
  simp only [OpcodeRow.selects, encode, Instr.row, encodeArith_and_mask]
  decide

theorem illegalArithHorizontalOp3 (o : ArithOperands) : Statement (.illegalArithHorizontalOp3 o) := by
  intro _
  simp only [OpcodeRow.selects, encode, Instr.row, encodeArith_and_mask]
  decide

theorem illegalArithHorizontalOp4 (o : ArithOperands) : Statement (.illegalArithHorizontalOp4 o) := by
  intro _
  simp only [OpcodeRow.selects, encode, Instr.row, encodeArith_and_mask]
  decide

theorem illegalArithHorizontalOp5 (o : ArithOperands) : Statement (.illegalArithHorizontalOp5 o) := by
  intro _
  simp only [OpcodeRow.selects, encode, Instr.row, encodeArith_and_mask]
  decide

theorem illegalArithOp6 (u : UnknownArith) : Statement (.illegalArithOp6 u) := by
  intro _
  have hm : (0x0E00000F : Word) = 0x0F00000F &&& 0x0E00000F := by decide
  simp only [OpcodeRow.selects, encode, Instr.row]
  rw [hm, ← BitVec.and_assoc, encodeArith_and_mask]
  cases u.horizontal <;> decide

theorem illegalArithOp7 (u : UnknownArith) : Statement (.illegalArithOp7 u) := by
  intro _
  have hm : (0x0E00000F : Word) = 0x0F00000F &&& 0x0E00000F := by decide
  simp only [OpcodeRow.selects, encode, Instr.row]
  rw [hm, ← BitVec.and_assoc, encodeArith_and_mask]
  cases u.horizontal <;> decide

theorem illegalTag9 (w : Word) : Statement (.illegalTag9 w) := id

theorem illegalTag10 (w : Word) : Statement (.illegalTag10 w) := id

theorem illegalTag11 (w : Word) : Statement (.illegalTag11 w) := id

theorem illegalTag12 (w : Word) : Statement (.illegalTag12 w) := id

theorem illegalTag13 (w : Word) : Statement (.illegalTag13 w) := id

theorem illegalTag14 (w : Word) : Statement (.illegalTag14 w) := id

theorem illegalTag15 (w : Word) : Statement (.illegalTag15 w) := id

end Sys2Proof.Laws.EncodesIntoRow
end

