-- ==== Sys2Proof/Laws/Stack.lean ====
section
/-! SUPPORT. Everything fetch, push and pop can do (40_execution_cycle.md R121, R122; 44_control.md R210,
R211). -/

namespace Sys2Proof.Machine

/-- `Fetch` in bounds. -/
theorem fetch_of_inBounds {s : State} (h : s.ip.toNat + 4 ≤ s.mem.len) :
    fetch s = .ok (leWord (s.mem.bytes s.ip.toNat 4), s.setIp (s.ip + 4)) := by
  simp [fetch, Memory.read_of_inBounds h]

/-- `Fetch` out of bounds. -/
theorem fetch_of_outOfBounds {s : State} (h : s.mem.len < s.ip.toNat + 4) :
    fetch s = .error (.fetchOutOfBounds s.ip) := by
  simp [fetch, (Memory.read_eq_none_iff _ _ _).2 h]

/-- Everything a fetch that succeeds does. -/
theorem fetch_spec {s t : State} {w : Word} (h : fetch s = .ok (w, t)) :
    s.ip.toNat + 4 ≤ s.mem.len ∧ s.mem.read s.ip 4 = some w ∧ t = s.setIp (s.ip + 4) := by
  unfold fetch at h
  split at h
  · rename_i v hv
    simp only [Except.ok.injEq, Prod.mk.injEq] at h
    obtain ⟨rfl, rfl⟩ := h
    exact ⟨(Memory.read_spec hv).1, hv, rfl⟩
  · cases h

/-- Everything a fetch that faults says. -/
theorem fetch_error {s : State} {c : FaultCause} (h : fetch s = .error c) :
    c = .fetchOutOfBounds s.ip ∧ s.mem.len < s.ip.toNat + 4 := by
  unfold fetch at h
  split at h
  · cases h
  · rename_i hv
    simp only [Except.error.injEq] at h
    exact ⟨h.symm, (Memory.read_eq_none_iff _ _ _).1 hv⟩

/-- `sp - 4` as a number, when a push may be made. -/
theorem toNat_sub_four {v : Word} (h : 4 ≤ v.toNat) : (v - 4).toNat = v.toNat - 4 := by
  have := v.isLt
  have h4 : (4 : Word).toNat = 4 := rfl
  rw [BitVec.toNat_sub, h4]
  omega

/-- A push with `sp < 4` (60_exceptions.md R243). -/
theorem push_of_underflow (w : Word) {s : State} (h : s.sp.toNat < 4) :
    push w s = .error (.stackPushUnderflow s.sp) := by simp [push, h]

/-- A push with `sp` past the end of memory (60_exceptions.md R247). -/
theorem push_of_outOfBounds (w : Word) {s : State} (h : 4 ≤ s.sp.toNat) (hl : s.mem.len < s.sp.toNat) :
    push w s = .error (.stackOutOfBounds (s.sp - 4)) := by
  have : s.mem.write (s.sp - 4) 4 w = none :=
    (Memory.write_eq_none_iff _ _ _ _).2 (by rw [toNat_sub_four h]; omega)
  simp only [push, this, show ¬ s.sp.toNat < 4 by omega, ↓reduceIte]

/-- A push that is made. -/
theorem push_of_inBounds (w : Word) {s : State} (h : 4 ≤ s.sp.toNat) (hl : s.sp.toNat ≤ s.mem.len) :
    push w s
      = .ok ((s.setSp (s.sp - 4)).setMem (s.mem.setBytes (s.sp - 4).toNat (leBytes 4 w))) := by
  have : (s.sp - 4).toNat + 4 ≤ s.mem.len := by rw [toNat_sub_four h]; omega
  simp only [push, Memory.write_of_inBounds this, show ¬ s.sp.toNat < 4 by omega, ↓reduceIte]

/-- Everything a push that succeeds does. -/
theorem push_spec {w : Word} {s t : State} (h : push w s = .ok t) :
    4 ≤ s.sp.toNat ∧ s.sp.toNat ≤ s.mem.len
      ∧ ∃ m, s.mem.write (s.sp - 4) 4 w = some m ∧ t = (s.setSp (s.sp - 4)).setMem m := by
  unfold push at h
  split at h
  · cases h
  · rename_i h4
    split at h
    · rename_i m hm
      simp only [Except.ok.injEq] at h
      refine ⟨by omega, ?_, m, hm, h.symm⟩
      by_contra hgt
      rw [(Memory.write_eq_none_iff _ _ _ _).2 (by rw [toNat_sub_four (by omega)]; omega)] at hm
      cases hm
    · cases h

/-- Everything a push that faults says. -/
theorem push_error {w : Word} {s : State} {c : FaultCause} (h : push w s = .error c) :
    (c = .stackPushUnderflow s.sp ∧ s.sp.toNat < 4)
      ∨ (c = .stackOutOfBounds (s.sp - 4) ∧ 4 ≤ s.sp.toNat ∧ s.mem.len < s.sp.toNat) := by
  rcases Nat.lt_or_ge s.sp.toNat 4 with h4 | h4
  · rw [push_of_underflow w h4, Except.error.injEq] at h
    exact .inl ⟨h.symm, h4⟩
  · rcases Nat.lt_or_ge s.mem.len s.sp.toNat with hl | hl
    · rw [push_of_outOfBounds w h4 hl, Except.error.injEq] at h
      exact .inr ⟨h.symm, h4, hl⟩
    · rw [push_of_inBounds w h4 hl] at h
      cases h

/-- A pop in bounds. -/
theorem pop_of_inBounds {s : State} (h : s.sp.toNat + 4 ≤ s.mem.len) :
    pop s = .ok (leWord (s.mem.bytes s.sp.toNat 4), s.setSp (s.sp + 4)) := by
  simp [pop, Memory.read_of_inBounds h]

/-- A pop past the end of memory (60_exceptions.md R247). -/
theorem pop_of_outOfBounds {s : State} (h : s.mem.len < s.sp.toNat + 4) :
    pop s = .error (.stackOutOfBounds s.sp) := by
  simp [pop, (Memory.read_eq_none_iff _ _ _).2 h]

/-- Everything a pop that succeeds does. -/
theorem pop_spec {s t : State} {w : Word} (h : pop s = .ok (w, t)) :
    s.sp.toNat + 4 ≤ s.mem.len ∧ s.mem.read s.sp 4 = some w ∧ t = s.setSp (s.sp + 4) := by
  unfold pop at h
  split at h
  · rename_i v hv
    simp only [Except.ok.injEq, Prod.mk.injEq] at h
    obtain ⟨rfl, rfl⟩ := h
    exact ⟨(Memory.read_spec hv).1, hv, rfl⟩
  · cases h

/-- Everything a pop that faults says. -/
theorem pop_error {s : State} {c : FaultCause} (h : pop s = .error c) :
    c = .stackOutOfBounds s.sp ∧ s.mem.len < s.sp.toNat + 4 := by
  unfold pop at h
  split at h
  · cases h
  · rename_i hv
    simp only [Except.error.injEq] at h
    exact ⟨h.symm, (Memory.read_eq_none_iff _ _ _).1 hv⟩

end Sys2Proof.Machine
end

