-- ==== Sys2Proof/Laws/Step.lean ====
section
/-! SUPPORT. Everything a step and the stateful instructions can do, each as one inversion: later proofs
cite these and unfold nothing (40_execution_cycle.md R120, R131; 44_control.md R204, R205). -/

namespace Sys2Proof.Machine

/-- The status of a running core. -/
theorem status_of_isRunning {s : State} (h : s.isRunning = true) : s.status = .running := by
  unfold State.isRunning at h
  split at h
  · assumption
  · cases h
  · cases h

/-- A running core fetches and executes. -/
theorem step_of_running {s : State} (h : s.isRunning = true) :
    step s = match fetch s with
      | .ok (w, t) => execute w t
      | .error c => .next (raise c s) := by
  obtain ⟨_, _, _, _, _, st, _⟩ := s
  cases status_of_isRunning h
  rfl

/-- A stopped core does nothing (R124). -/
theorem step_of_stopped {s : State} (h : s.isRunning = false) : step s = .next s := by
  unfold State.isRunning at h
  unfold step
  split at h
  · cases h
  · simp_all
  · simp_all

/-- `Execute` answers a next state when the meaning does: that state, with the word in the fault it records. -/
theorem execute_of_exec {w : Word} {s t : State} (h : exec (decode w) s = .next t) :
    execute w s = .next (t.setStatus (t.status.ofWord w)) := by
  simp only [execute, h]

/-- Everything an `Execute` that answers a next state did. -/
theorem execute_cases {w : Word} {s t : State} (h : execute w s = .next t) :
    ∃ u, exec (decode w) s = .next u ∧ t = u.setStatus (u.status.ofWord w) := by
  cases he : exec (decode w) s with
  | next u =>
    rw [execute_of_exec he, Host.Outcome.next.injEq] at h
    exact ⟨u, rfl, h.symm⟩
  | fault r => simp [execute, he] at h
  | refused r => simp [execute, he] at h

/-- Everything a step can do. -/
theorem step_cases {s t : State} (h : step s = .next t) :
    (s.isRunning = false ∧ t = s)
      ∨ (s.isRunning = true ∧ s.mem.len < s.ip.toNat + 4 ∧ t = raise (.fetchOutOfBounds s.ip) s)
      ∨ (s.isRunning = true ∧ ∃ w u, s.mem.read s.ip 4 = some w
          ∧ exec (decode w) (s.setIp (s.ip + 4)) = .next u ∧ t = u.setStatus (u.status.ofWord w)) := by
  cases hr : s.isRunning with
  | false =>
    rw [step_of_stopped hr, Host.Outcome.next.injEq] at h
    exact .inl ⟨rfl, h.symm⟩
  | true =>
    rw [step_of_running hr] at h
    cases hf : fetch s with
    | ok p =>
      obtain ⟨w, u⟩ := p
      obtain ⟨-, hw, rfl⟩ := fetch_spec hf
      simp only [hf] at h
      obtain ⟨v, hv, rfl⟩ := execute_cases h
      exact .inr (.inr ⟨rfl, w, v, hw, hv, rfl⟩)
    | error c =>
      obtain ⟨rfl, hl⟩ := fetch_error hf
      simp only [hf, Host.Outcome.next.injEq] at h
      exact .inr (.inl ⟨rfl, hl, h.symm⟩)

/-! ### The vectorized instructions -/

/-- An active lane's state, when only registers differ. -/
theorem OnlyRegs.laneActive {s t : State} (h : OnlyRegs s t) (i : Nat) :
    t.laneActive i = s.laneActive i := by
  rw [h]
  rfl

/-- An active lane's state, when only memory differs. -/
theorem OnlyMem.laneActive {s t : State} (h : OnlyMem s t) (i : Nat) :
    t.laneActive i = s.laneActive i := by
  rw [h]
  rfl

/-- A load changes registers only; and if it faults, it is in an active lane whose access passes the end of
memory, the address being what that lane of `ptr` holds. -/
theorem load_cases (reg ptr : Reg) (n : Nat) (s : State) :
    OnlyRegs s (forActiveLanes (loadLane reg ptr n) s)
      ∨ ∃ u i, OnlyRegs s u ∧ s.laneActive i = true ∧ s.mem.len < (u.readReg ptr i).toNat + n
          ∧ forActiveLanes (loadLane reg ptr n) s = raise (.memoryOutOfBounds (u.readReg ptr i) n i) u := by
  refine (runLanes_cases (body := loadLane reg ptr n) (OnlyRegs s) s.enabledLanes ?_
    (OnlyRegs.rfl' s)).imp id ?_
  · intro i _ u v hu _ h
    unfold loadLane at h
    split at h
    · simp only [Except.ok.injEq] at h
      exact h ▸ hu.trans' (OnlyRegs.writeReg _ _ _ _)
    · cases h
  · rintro ⟨i, hi, u, c, hu, hm, hc, ht⟩
    unfold loadLane at hc
    split at hc
    · cases hc
    · rename_i hr
      simp only [Except.error.injEq] at hc
      have hl := (Memory.read_eq_none_iff _ _ _).1 hr
      rw [hu.fields.2.2.2.2.2] at hl
      refine ⟨u, i, hu, ?_, hl, ht.trans (by rw [← hc]; rfl)⟩
      exact (s.laneActive_iff i).2 ⟨(s.mem_enabledLanes i).1 hi, by rw [← hu.readMask]; exact hm⟩

/-- A store changes memory only and keeps its form and length; and if it faults, it is in an active lane whose
access passes the end of memory, the address being what that lane of `ptr` holds. -/
theorem store_cases (reg ptr : Reg) (n : Nat) {s : State} (hw : s.mem.wf = true) :
    ∃ u, OnlyMem s u ∧ u.mem.wf = true ∧ u.mem.len = s.mem.len
      ∧ (forActiveLanes (storeLane reg ptr n) s = u
        ∨ ∃ i, s.laneActive i = true ∧ s.mem.len < (s.readReg ptr i).toNat + n
            ∧ forActiveLanes (storeLane reg ptr n) s = raise (.memoryOutOfBounds (s.readReg ptr i) n i) u) := by
  have := runLanes_cases (body := storeLane reg ptr n)
    (fun u => OnlyMem s u ∧ u.mem.wf = true ∧ u.mem.len = s.mem.len) s.enabledLanes ?_
    ⟨OnlyMem.rfl' s, hw, rfl⟩
  · rcases this with ⟨h1, h2, h3⟩ | ⟨i, hi, u, c, ⟨h1, h2, h3⟩, hm, hc, ht⟩
    · exact ⟨_, h1, h2, h3, .inl rfl⟩
    · refine ⟨u, h1, h2, h3, .inr ?_⟩
      unfold storeLane at hc
      split at hc
      · cases hc
      · rename_i hr
        simp only [Except.error.injEq] at hc
        have hl := (Memory.write_eq_none_iff _ _ _ _).1 hr
        simp only [effectiveAddress, h3, h1.readReg] at hl hc
        refine ⟨i, ?_, hl, ht.trans (by rw [hc])⟩
        exact (s.laneActive_iff i).2 ⟨(s.mem_enabledLanes i).1 hi, by rw [← h1.readMask]; exact hm⟩
  · rintro i _ u v ⟨h1, h2, h3⟩ _ h
    obtain ⟨g1, -, g2, g3, -⟩ := storeLane_spec h2 h
    exact ⟨h1.trans' g1, g2, g3.trans h3⟩

/-- A store leaves a byte that no active lane's access reaches alone, whether it faults or not. -/
theorem store_byte_outside (reg ptr : Reg) (n : Nat) (s : State) {a : Nat}
    (h : ∀ i, s.laneActive i = true → ¬ covers ptr n s i a) :
    (forActiveLanes (storeLane reg ptr n) s).mem.byte a = s.mem.byte a := by
  have hk := runLanes_cases (body := storeLane reg ptr n)
    (fun u => OnlyMem s u ∧ u.mem.byte a = s.mem.byte a) s.enabledLanes ?_ ⟨OnlyMem.rfl' s, rfl⟩
  · rcases hk with h | ⟨i, -, u, c, h, -, -, ht⟩
    · exact h.2
    · rw [forActiveLanes, ht]
      exact h.2
  · rintro i hi u v ⟨hu, hb⟩ hm hv
    have ha := (s.laneActive_iff i).2 ⟨(s.mem_enabledLanes i).1 hi, by rw [← hu.readMask]; exact hm⟩
    unfold storeLane at hv
    split at hv
    · rename_i m hw
      simp only [Except.ok.injEq] at hv
      subst hv
      refine ⟨hu.trans' rfl, ?_⟩
      have hin : (u.readReg ptr i).toNat + n ≤ u.mem.len := by
        by_contra hc
        rw [effectiveAddress, (Memory.write_eq_none_iff _ _ _ _).2 (by omega)] at hw
        cases hw
      rw [effectiveAddress, Memory.write_of_inBounds hin, Option.some.injEq] at hw
      have hc := h i ha
      simp only [covers, hu.readReg] at hc hw
      rw [State.mem_setMem, ← hw, Memory.byte_setBytes_outside _ _ _ (by rw [length_leBytes]; omega), hb]
    · cases hv

/-- A copy changes registers only, and never faults. -/
theorem copy_onlyRegs (half : Word → BitVec 16 → Word) (dst : Reg) (value : BitVec 16) (s : State) :
    OnlyRegs s (forActiveLanes (copyLane half dst value) s) :=
  (forActiveLanes_laneLocal fun i hi =>
    copyLane_laneLocal half dst value s (s.enabled_lt_lanes ((s.laneActive_iff i).1 hi).1)).1

/-- An `arith` changes registers only, and never faults. -/
theorem arith_onlyRegs (alu : Word → Word → AluResult) (o : ArithOperands) (s : State) :
    OnlyRegs s (forActiveLanes (arithLane alu o) s) :=
  (forActiveLanes_laneLocal fun i hi =>
    arithLane_laneLocal alu o s (s.enabled_lt_lanes ((s.laneActive_iff i).1 hi).1)).1

/-! ### Control transfer -/

/-- Everything a taken `bz` with `save_ip` can do (44_control.md R204). -/
theorem call_cases (offset : BitVec 16) (s : State) :
    (s.sp.toNat < 4 ∧ orRaise s (callBranch offset s) = raise (.stackPushUnderflow s.sp) s)
      ∨ (4 ≤ s.sp.toNat ∧ s.mem.len < s.sp.toNat
          ∧ orRaise s (callBranch offset s) = raise (.stackOutOfBounds (s.sp - 4)) s)
      ∨ (4 ≤ s.sp.toNat ∧ s.sp.toNat ≤ s.mem.len
          ∧ orRaise s (callBranch offset s)
            = takeBranch offset
              ((s.setSp (s.sp - 4)).setMem (s.mem.setBytes (s.sp - 4).toNat (leBytes 4 s.ip)))) := by
  rcases Nat.lt_or_ge s.sp.toNat 4 with h4 | h4
  · exact .inl ⟨h4, by simp [callBranch, push_of_underflow _ h4, orRaise]⟩
  · rcases Nat.lt_or_ge s.mem.len s.sp.toNat with hl | hl
    · exact .inr (.inl ⟨h4, hl, by simp [callBranch, push_of_outOfBounds _ h4 hl, orRaise]⟩)
    · exact .inr (.inr ⟨h4, hl, by simp [callBranch, push_of_inBounds _ h4 hl, orRaise]⟩)

/-- Everything `ret` can do (44_control.md R205). -/
theorem ret_cases (s : State) :
    (s.mem.len < s.sp.toNat + 4 ∧ orRaise s (returnBranch s) = raise (.stackOutOfBounds s.sp) s)
      ∨ (s.sp.toNat + 4 ≤ s.mem.len
          ∧ orRaise s (returnBranch s)
            = (s.setSp (s.sp + 4)).setIp (leWord (s.mem.bytes s.sp.toNat 4))) := by
  rcases Nat.lt_or_ge s.mem.len (s.sp.toNat + 4) with h | h
  · exact .inl ⟨h, by simp [returnBranch, pop_of_outOfBounds h, orRaise]⟩
  · exact .inr ⟨h, by simp [returnBranch, pop_of_inBounds h, orRaise]⟩

end Sys2Proof.Machine
end

