-- ==== Sys2Proof/Tests/Slice0.lean ====
section
/-! SUPPORT. The model's own tests: expected results from the vectors of 95_test_vectors.md (named beside
each), one step on a small state; the smoke test of `Instr.wf`; and for every statement with hypotheses a
state and operands that meet them, at the bounds of each clause. -/

namespace Sys2Proof.Tests

open Sys2Proof.Machine

/-! ### Small states -/

/-- What `f` sees of the next state. -/
def see {α : Type} (o : Host.Outcome State Fault Refusal) (f : State → α) : Option α :=
  match o with
  | .next t => some (f t)
  | .fault _ => none
  | .refused _ => none

/-- The core after `Init(0x100)` with `MEM_LEN` = 0x100. -/
def blank : State := State.init 0x100 ⟨0x100, []⟩

/-- The lanes of `r` from lane `i` up set to a list. -/
def setLanes (r : Reg) : Nat → List Word → State → State
  | _, [], s => s
  | i, v :: vs, s => setLanes r (i + 1) vs (s.writeReg r i v)

/-- The mask bits from lane `i` up set to a list. -/
def setBits : Nat → List Bool → State → State
  | _, [], s => s
  | i, b :: bs, s => setBits (i + 1) bs (s.writeMask i b)

/-- Bytes put in memory. -/
def setMemory (a : Nat) (bs : List Byte) (s : State) : State := s.setMem (s.mem.setBytes a bs)

/-- Lanes of a register. -/
def lanesOf (r : Reg) (n : Nat) (s : State) : List Word := (List.range n).map (s.readReg r)

abbrev r0 : Reg := .gpr 0
abbrev r1 : Reg := .gpr 1
abbrev r2 : Reg := .gpr 2
abbrev r3 : Reg := .gpr 3

/-- Section 3's start state: an address in `R00`, four bytes there, a value in `R01`. -/
def memState (address : Word) : State :=
  setMemory 0x10 [0x88, 0x99, 0xAA, 0xBB] (setLanes r1 0 [0x11223344] (setLanes r0 0 [address] blank))

/-- Section 5's start state: `a` in `R00`, `b` in `R01`. -/
def aluState (a b : Word) : State := setLanes r1 0 [b] (setLanes r0 0 [a] blank)

/-- Section 6's start state: `ip` already advanced, `v` in `R00`, a stack pointer. -/
def branchState (v sp : Word) : State := ((setLanes r0 0 [v] blank).setIp 0x24).setSp sp

/-- A memory of `len` bytes that holds `bs` from address 0, and `ip`. -/
def codeState (len : Nat) (ip : Word) (bs : List Byte) : State :=
  setMemory 0 bs ((State.init 0x100 ⟨len, []⟩).setIp ip)

/-- `R02`, `R00`, `R01`, `RF`, no complement: the operands of most of section 5's words. -/
def plain : ArithOperands := ⟨r2, r0, r1, .rf, false, false, false, false⟩

/-! ### Well-formedness: an ill-formed term for each check -/

theorem smoke_tag9 : (Instr.illegalTag9 0x8).wf = false := by decide
theorem smoke_tag10 : (Instr.illegalTag10 0x9).wf = false := by decide
theorem smoke_tag11 : (Instr.illegalTag11 0xA).wf = false := by decide
theorem smoke_tag12 : (Instr.illegalTag12 0xB).wf = false := by decide
theorem smoke_tag13 : (Instr.illegalTag13 0xC).wf = false := by decide
theorem smoke_tag14 : (Instr.illegalTag14 0xD).wf = false := by decide
theorem smoke_tag15 : (Instr.illegalTag15 0xE).wf = false := by decide

/-! ### Decoding: words written out from the encodings (30_encoding.md R83 to R93; the ids are the vectors') -/

theorem test_decode_vlenset : decode 0x00000FF0 = .vlenset 255 ∧ decode 0xFFFFF030 = .vlenset 3 := by decide -- VL2, VL4
theorem test_decode_maskset : decode 0x00000021 = .maskset r2 ∧ decode 0x000000E1 = .maskset .rf := by decide -- MS5, MS3
theorem test_decode_load : decode 0x00040012 = .memoryLoad r1 r0 1 ∧ decode 0x00000E12 = .memoryLoad r1 .rf 0 := by
  decide -- LD2, LD7
theorem test_decode_store : decode 0x000A0012 = .memoryStore r1 r0 2 ∧ decode 0xFFFFF012 = .memoryStore r1 r0 3 := by
  decide -- ST3, ST5
theorem test_decode_copy : decode 0x0BEEF063 = .copyLower (.gpr 6) 0xBEEF ∧ decode 0x000018F3 = .copyUpper .rt 1 := by
  decide -- CP6, CP5
theorem test_decode_copy_ignored : decode 0xF1234703 = .copyLower r0 0x1234 := by decide -- CP7
theorem test_decode_add : decode 0x007E1024 = .arithAdd ⟨r2, r0, r1, .rf, true, true, true, false⟩ := by decide -- AR5
theorem test_decode_sub : decode 0x020E1234 = .arithSub ⟨r3, r2, r1, .rf, false, false, false, false⟩ := by decide -- AR7
theorem test_decode_mul : decode 0x040E1024 = .arithMul ⟨r2, r0, r1, .rf, false, false, false, false⟩ := by decide -- AR11
theorem test_decode_div : decode 0x06931024 = .arithDiv ⟨r2, r0, r1, r3, true, false, false, true⟩ := by decide -- AR18
theorem test_decode_and : decode 0x086E1024 = .arithAnd ⟨r2, r0, r1, .rf, false, true, true, false⟩ := by decide -- AR25
theorem test_decode_xor : decode 0x0A0EF024 = .arithXor ⟨r2, r0, .rt, .rf, false, false, false, false⟩ := by decide -- AR28
theorem test_decode_jz : decode 0x0FFF4015 = .jz r1 0xFFF4 := by decide -- CT3
theorem test_decode_bz : decode 0x000088F6 = .bz .rt true 8 ∧ decode 0x00008006 = .bz r0 false 8 := by decide -- CT18, CT8
theorem test_decode_ret : decode 0xFFFFFFF7 = .ret := by decide -- CT19
theorem test_decode_inter : decode 0xFFF00008 = .inter 0 ∧ decode 0x000FFFF8 = .inter 65535 := by decide -- IN4, IN3
theorem test_decode_unknown : decode 0x00000009 = .illegalTag9 9 ∧ decode 0xFFFFFFFF = .illegalTag15 0xFFFFFFFF := by
  decide -- FT1, FT2
theorem test_decode_horizontal : decode 0x0B0E1024 = .illegalArithHorizontalOp5 plain
    ∧ decode 0x0D0E1024 = .illegalArithOp6 ⟨plain, true⟩ ∧ decode 0x0E0E1024 = .illegalArithOp7 ⟨plain, false⟩ := by
  decide -- AR37 with op 5, AR38, AR36
/-- Bits 31:28 are ignored in the words that execute as a fault too (30_encoding.md R97), and encode to 0 (R100). -/
theorem test_decode_fault_ignored : decode 0xF10E1024 = decode 0x010E1024 ∧ decode 0xFC0E1024 = decode 0x0C0E1024
    ∧ encode (decode 0xF10E1024) = 0x010E1024 ∧ encode (decode 0xFC0E1024) = 0x0C0E1024 := by decide
theorem test_encode_canonical : encode (decode 0xFFFFF030) = 0x30 ∧ encode (decode 0xFFFFF012) = 0x000E0012
    ∧ encode (decode 0xF1234703) = 0x01234003 := by decide -- section 8's last paragraph
theorem test_decodeTableWord : decodeTableWord 32 0x00012348 = some (.inter 0x1234) := by decide -- IN2

/-! ### Execution -/

theorem test_vlenset : see (exec (.vlenset 0) (blank.setVlen 7)) (·.vlen) = some 0 := by decide -- VL1

theorem test_maskset : see (exec (.maskset r0) (setLanes r0 0 [0, 5, 0, 7] (blank.setVlen 3)))
    (fun t => (List.range 5).map t.readMask) = some [false, true, false, true, true] := by decide -- MS1
theorem test_maskset_above_vlen : see (exec (.maskset r0) (setLanes r0 1 [9] (setBits 1 [false] blank)))
    (fun t => (List.range 3).map t.readMask) = some [false, false, true] := by decide -- MS6

theorem test_load : see (exec (.memoryLoad r1 r0 2) (memState 0x10)) (·.readReg r1 0) = some 0x00AA9988 := by
  decide -- LD3
theorem test_load_out : see (exec (.memoryLoad r1 r0 3) (memState 0xFD)) (fun t => (t.status, t.readReg r1 0))
    = some (.faulted (.memoryOutOfBounds 0xFD 4 0), 0x11223344) := by decide -- LD9

theorem test_store_order : see (exec (.memoryStore r1 r0 3)
    (setLanes r1 1 [0xAABBCCDD] (setLanes r0 1 [0x12] ((memState 0x10).setVlen 1)))) (·.mem.bytes 0x10 6)
    = some [0x44, 0x33, 0xDD, 0xCC, 0xBB, 0xAA] := by decide -- ST8
theorem test_store_partial : see (exec (.memoryStore r1 r0 0)
    (setLanes r1 0 [0xAB, 0xAB] (setLanes r0 1 [0x100] ((memState 0x10).setVlen 1))))
    (fun t => (t.status, t.mem.byte 0x10))
    = some (.faulted (.memoryOutOfBounds 0x100 1 1), 0xAB) := by decide -- ST9

theorem test_copyLower : see (exec (.copyLower r0 0x1234) (setLanes r0 0 [0xAAAA5555] blank)) (·.readReg r0 0)
    = some 0xAAAA1234 := by decide -- CP1
theorem test_copyUpper : see (exec (.copyUpper r0 0xDEAD) (setLanes r0 0 [0xAAAA1234] blank)) (·.readReg r0 0)
    = some 0xDEAD1234 := by decide -- CP2

theorem test_add_flags : see (exec (.arithAdd ⟨r2, r0, r1, .rf, true, true, true, false⟩) (aluState 5 3))
    (·.readReg r2 0) = some 9 := by decide -- AR5
theorem test_add_masked : see (exec (.arithAdd ⟨r2, r0, r1, .rf, false, false, false, false⟩)
    (setBits 0 [false, true, false, true] (setLanes r0 0 [1, 2, 3, 4] (setLanes r1 0 [10, 20, 30, 40]
      (setLanes r2 0 [9, 9, 9, 9] (blank.setVlen 3)))))) (lanesOf r2 4) = some [9, 22, 9, 44] := by decide -- AR33
theorem test_sub : see (exec (.arithSub ⟨r2, r0, r1, .rf, false, false, true, false⟩) (aluState 5 3))
    (·.readReg r2 0) = some 9 := by decide -- AR10
theorem test_sub_wraps : see (exec (.arithSub ⟨r2, r0, r1, .rf, false, false, false, false⟩) (aluState 5 7))
    (·.readReg r2 0) = some 0xFFFFFFFE := by decide -- AR6
theorem test_mul : see (exec (.arithMul ⟨r2, r0, r1, .rf, false, false, false, false⟩)
    (aluState 0x12345678 0x9ABCDEF0)) (·.readReg r2 0) = some 0x242D2080 := by decide -- AR12b
theorem test_div : see (exec (.arithDiv ⟨r2, r0, r1, r3, true, false, false, true⟩) (aluState 17 5))
    (fun t => (t.readReg r2 0, t.readReg r3 0)) = some (0xFFFFFFFC, 0xFFFFFFFD) := by decide -- AR18
theorem test_div_zero : see (exec (.arithDiv ⟨r2, r0, r1, r3, false, false, false, true⟩) (aluState 17 0))
    (fun t => (t.readReg r2 0, t.readReg r3 0)) = some (0, 0xFFFFFFFF) := by decide -- AR17
theorem test_and : see (exec (.arithAnd ⟨r2, r0, r1, .rf, false, false, true, false⟩)
    (aluState 0xFF00FF00 0x0FF00FF0)) (·.readReg r2 0) = some 0xF000F000 := by decide -- AR26a
theorem test_xor : see (exec (.arithXor ⟨r2, r0, r1, .rf, true, false, false, false⟩)
    (aluState 0xFF00FF00 0x0FF00FF0)) (·.readReg r2 0) = some 0x0F0F0F0F := by decide -- AR27a

theorem test_jz_back : see (exec (.jz r1 0xFFF4) (branchState 0 0x100)) (·.ip) = some 0x18 := by decide -- CT3
theorem test_jz_masked : see (exec (.jz r0 4)
    (setBits 0 [true, false] (setLanes r0 1 [5] ((branchState 0 0x100).setVlen 1)))) (·.ip) = some 0x28 := by
  decide -- CT6
theorem test_bz_call : see (exec (.bz r0 true 8) (branchState 0 0x100))
    (fun t => (t.ip, t.sp, t.mem.bytes 0xFC 4)) = some (0x2C, 0xFC, [0x24, 0, 0, 0]) := by decide -- CT9
theorem test_bz_above : see (exec (.bz .rf true 0) (branchState 0 0x104)) (fun t => (t.status, t.sp, t.ip))
    = some (.faulted (.stackOutOfBounds 0x100), 0x104, 0x24) := by decide -- CT13
theorem test_ret : see (exec .ret (setMemory 0x80 [1, 2, 0, 0] (branchState 0 0x80))) (fun t => (t.ip, t.sp))
    = some (0x201, 0x84) := by decide -- CT17
theorem test_ret_out : see (exec .ret (branchState 0 0x100)) (fun t => (t.status, t.ip, t.sp))
    = some (.faulted (.stackOutOfBounds 0x100), 0x24, 0x100) := by decide -- CT15
theorem test_inter : see (exec (.inter 0x1234) blank) (·.status) = some (.hostRequest 0x1234) := by decide -- IN2
theorem test_op6_horizontal : see (execute 0x0D0E1024 blank) (·.status)
    = some (.faulted (.unknownOpcode 0x0D0E1024)) := by decide -- AR38
theorem test_horizontal : see (execute 0x010E1024 (setBits 0 [false] blank)) (·.status)
    = some (.faulted (.unsupported .horizontal 0x010E1024)) := by decide -- AR39
/-- The recorded word is the whole word (00_scope.md R11; 60_exceptions.md R241). -/
theorem test_horizontal_whole_word : see (step (codeState 8 0 [0x24, 0x10, 0x0E, 0xF1])) (·.status)
    = some (.faulted (.unsupported .horizontal 0xF10E1024)) := by decide

theorem test_step_unknown : see (step (codeState 8 0 [0xFF, 0xFF, 0xFF, 0xFF])) (fun t => (t.status, t.ip))
    = some (.faulted (.unknownOpcode 0xFFFFFFFF), 4) := by decide -- FT2
theorem test_step_straddle : see (step (codeState 8 5 [])) (fun t => (t.status, t.ip))
    = some (.faulted (.fetchOutOfBounds 5), 5) := by decide -- FT4
theorem test_step_misaligned : see (step (codeState 9 1 [0, 0x18, 0, 0, 0])) (fun t => (t.status, t.ip))
    = some (.hostRequest 1, 5) := by decide -- FT7
theorem test_withFetchWord : see (step (State.reset.withFetchWord 32 0x00012348)) (·.status)
    = some (.hostRequest 0x1234) := by decide -- IN2

/-! ### The statements' hypotheses can be met

One theorem per statement with hypotheses; a conjunct or a further theorem for each clause, at the bounds of
its range. -/

/-- What holds of lanes 0 to `n`, where `n` is `vlen`, holds of every active lane. -/
theorem of_lanes {s : State} {P : Nat → Prop} (n : Nat) (hv : s.vlen.toNat = n) (h : ∀ i : Fin (n + 1), P i) :
    ∀ i, s.laneActive i = true → P i := fun i hi =>
  h ⟨i, by have := ((s.laneActive_iff i).1 hi).1; omega⟩

/-- No lane is active when the mask bits of lanes 0 to `vlen` are clear. -/
theorem no_lanes {s : State} (n : Nat) (hv : s.vlen.toNat = n) (h : ∀ i : Fin (n + 1), s.readMask i = false) :
    ∀ i, s.laneActive i = false := fun i => by
  cases ha : s.laneActive i with
  | false => rfl
  | true =>
    have := of_lanes (P := fun j => s.readMask j = false) n hv h i ha
    simp [((s.laneActive_iff i).1 ha).2] at this

/-- Two lanes whose 4-byte ranges overlap in two bytes, the second lane's ending at the end of memory. -/
def overlap : State :=
  setLanes r1 0 [0x11223344, 0xAABBCCDD] (setLanes r0 0 [0xFA, 0xFC] ((blank.setVlen 1).setIp 0xFC))

/-- Lane 0 in bounds, lane 1 the first past the end of memory, lane 2 masked off. -/
def secondLaneOut : State :=
  setBits 2 [false] (setLanes r0 0 [0xFC, 0xFD, 0xFFFFFFFF] (blank.setVlen 2))

theorem witness_DecodeOfEncode : (Instr.illegalArithOp6 ⟨plain, true⟩).wf = true
    ∧ (Instr.illegalArithHorizontalOp5 plain).wf = true ∧ (Instr.illegalTag15 0xFFFFFFFF).wf = true
    ∧ (Instr.vlenset 255).wf = true := by decide

theorem witness_EveryWordSelectsOneRow : (Instr.vlenset 7).row.selects 0xFFFFF030 = true := by decide

theorem witness_IgnoredBits : (decode 0xFFFFF030).keptWord = none
    ∧ 0xFFFFF030 &&& ~~~(decode 0xFFFFF030).row.ignored = 0x00000030 &&& ~~~(decode 0xFFFFF030).row.ignored
    ∧ (decode 0xF10E1024).keptWord = none
    ∧ 0xF10E1024 &&& ~~~(decode 0xF10E1024).row.ignored = 0x010E1024 &&& ~~~(decode 0xF10E1024).row.ignored := by
  decide

theorem witness_ByteDecoder : ([0, 0, 0] : List Byte).length < 4 ∧ 0xFFFFFFFF < 2 ^ 32 := by decide

theorem witness_Init : 255 < 256 := by decide

theorem witness_ResetVector : let s := codeState 4 0 [0x18, 0x00, 0x00, 0x00]
    4 ≤ s.mem.len ∧ ∀ k : Fin 4, bits (8 * k) 8 0x00000018 = s.mem.byte k := by decide

theorem witness_ExecuteRecordsTheWord : blank.isRunning = true ∧ executesAsFault (decode 0x00012348) = false
    ∧ executesAsFault (decode 0xF10E1024) = true ∧ executesAsFault (decode 0xFFFFFFFF) = true
    ∧ (decode 0xFD0E1024).keptWord = none
    ∧ 0xFD0E1024 &&& ~~~(decode 0xFD0E1024).row.ignored = 0x0D0E1024 &&& ~~~(decode 0xFD0E1024).row.ignored := by decide

theorem witness_Step_stopped : (blank.setStatus (.hostRequest 0)).isRunning = false := by decide
theorem witness_Step_out : let s := codeState 8 5 []
    s.isRunning = true ∧ s.mem.len < s.ip.toNat + 4 := by decide
theorem witness_Step_last : let s := setMemory 4 [0x08, 0, 0, 0] (codeState 8 4 [])
    s.isRunning = true ∧ s.ip.toNat + 4 ≤ s.mem.len
      ∧ (∀ k : Fin 4, bits (8 * k) 8 0x00000008 = s.mem.byte (s.ip.toNat + k))
      ∧ executesAsFault (decode 0x00000008) = false := by decide

theorem witness_StoppedCore : (blank.setStatus (.faulted (.fetchOutOfBounds 0))).isRunning = false := by decide

theorem witness_PlacedWord : State.reset.mem.wf = true ∧ (codeState 3 0xFFFFFFFD [1, 2, 3]).mem.wf = true
    ∧ 0xFFFFFFFF < 2 ^ 32 ∧ executesAsFault (decode (BitVec.ofNat 32 0x00012348)) = false := by decide

theorem witness_StepKeepsTheInvariant : Inv (codeState 8 5 []) ∧ ∃ t, step (codeState 8 5 []) = .next t :=
  ⟨⟨by decide, trivial⟩, _, rfl⟩
theorem witness_StepKeepsTheInvariant_runs : let s := codeState 8 4 [0, 0, 0, 0, 8]
    Inv s ∧ ∃ t, step s = .next t := ⟨⟨by decide, trivial⟩, _, rfl⟩

theorem witness_RegisterAccess : 256 ≤ 256 ∧ 255 < 256 ∧ (Reg.rf ≠ .gpr 13 ∨ 255 ≠ 255) ∧ (r0 ≠ r0 ∨ 0 ≠ 255) := by
  decide
theorem witness_MaskAccess : 256 ≤ 256 ∧ 255 < 256 ∧ 0 ≠ 255 := by decide

theorem witness_MemoryRead : 1 ≤ 4 ∧ 4 ≤ 4 ∧ blank.mem.len < (0xFD : Word).toNat + 4
    ∧ (0xFC : Word).toNat + 4 ≤ blank.mem.len := by decide
theorem witness_MemoryWrite : blank.mem.wf = true ∧ 1 ≤ 1 ∧ 1 ≤ 4
    ∧ blank.mem.len < (0x100 : Word).toNat + 1 ∧ (0xFF : Word).toNat + 1 ≤ blank.mem.len
    ∧ (0xFE < (0xFF : Word).toNat ∨ (0xFF : Word).toNat + 1 ≤ 0xFE) := by decide
theorem witness_MixedWidth : blank.mem.wf = true ∧ (blank.mem.write 0xFC 4 0x11223344).isSome = true ∧ 1 ≤ 3
    ∧ 1 + 3 ≤ 4 := by decide

theorem witness_Vlenset : tagOf 0xFFFFFFF0 = opcVlenset := by decide
theorem witness_Maskset : tagOf 0x000000F1 = opcMaskset ∧ 3 ≤ (blank.setVlen 3).vlen.toNat
    ∧ (blank.setVlen 3).vlen.toNat < 4 := by decide

theorem witness_LoadGathers : ActiveLanesInBounds r0 4 overlap ∧ r1.backed = true ∧ overlap.laneActive 1 = true
    ∧ overlap.laneActive 2 = false ∧ Reg.rf.backed = false :=
  ⟨of_lanes 1 (by decide) (by decide), by decide⟩
theorem witness_LoadStops : secondLaneOut.laneActive 1 = true
    ∧ secondLaneOut.mem.len < (secondLaneOut.readReg r0 1).toNat + 4
    ∧ (∀ i : Fin 1, secondLaneOut.laneActive i = true → (secondLaneOut.readReg r0 i).toNat + 4 ≤ secondLaneOut.mem.len)
    ∧ secondLaneOut.laneActive 0 = true := by decide

theorem witness_StoreScatters : overlap.mem.wf = true ∧ ActiveLanesInBounds r0 4 overlap :=
  ⟨by decide, of_lanes 1 (by decide) (by decide)⟩
/-- The last lane that reaches 0xFC is lane 1; no lane reaches 0xF9. -/
theorem witness_StoreScatters_bytes :
    (overlap.laneActive 1 = true ∧ LaneReaches r0 4 overlap 1 0xFC
      ∧ ∀ j, 1 < j → overlap.laneActive j = true → ¬ LaneReaches r0 4 overlap j 0xFC)
    ∧ ∀ i, overlap.laneActive i = true → ¬ LaneReaches r0 4 overlap i 0xF9 :=
  ⟨⟨by decide, by unfold LaneReaches; decide,
      fun j hj ha => of_lanes (P := fun j => 1 < j → ¬ LaneReaches r0 4 overlap j 0xFC) 1 (by decide)
        (by unfold LaneReaches; decide) j ha hj⟩,
    of_lanes 1 (by decide) (by unfold LaneReaches; decide)⟩
theorem witness_StoreStops : secondLaneOut.mem.wf = true ∧ secondLaneOut.laneActive 1 = true
    ∧ secondLaneOut.mem.len < (secondLaneOut.readReg r0 1).toNat + 4
    ∧ ∀ i : Fin 1, secondLaneOut.laneActive i = true → (secondLaneOut.readReg r0 i).toNat + 4 ≤ secondLaneOut.mem.len := by
  decide
/-- Lane 1's bytes are the last written, so lane 1 gets its value back. -/
theorem witness_StoreThenLoad : overlap.mem.wf = true ∧ ActiveLanesInBounds r0 ((3 : BitVec 2).toNat + 1) overlap
    ∧ r3.backed = true ∧ overlap.laneActive 1 = true
    ∧ ∀ a j, 1 < j → overlap.laneActive j = true → LaneReaches r0 4 overlap 1 a → ¬ LaneReaches r0 4 overlap j a :=
  ⟨by decide, of_lanes 1 (by decide) (by decide), by decide, by decide, fun a j hj ha =>
    absurd hj (of_lanes (P := fun j => ¬ 1 < j) 1 (by decide) (by decide) j ha)⟩
/-- Lane 1 stores a Word at `ip`. -/
theorem witness_NextFetch : overlap.mem.wf = true ∧ ActiveLanesInBounds r0 4 overlap ∧ overlap.laneActive 1 = true
    ∧ overlap.readReg r0 1 = overlap.ip
    ∧ ∀ a j, 1 < j → overlap.laneActive j = true → LaneReaches r0 4 overlap 1 a → ¬ LaneReaches r0 4 overlap j a :=
  ⟨by decide, of_lanes 1 (by decide) (by decide), by decide, by decide, fun a j hj ha =>
    absurd hj (of_lanes (P := fun j => ¬ 1 < j) 1 (by decide) (by decide) j ha)⟩

theorem witness_Copy : (Reg.gpr 13).backed = true ∧ (blank.setVlen 255).laneActive 255 = true
    ∧ (blank.setVlen 254).laneActive 255 = false ∧ Reg.rt.backed = false := by decide

theorem witness_WritesDstOnly : r2.backed = true ∧ blank.laneActive 0 = true ∧ blank.laneActive 1 = false := by decide
theorem witness_Div : r2 ≠ r3 ∧ blank.laneActive 0 = true ∧ r2.backed = true ∧ r3.backed = true
    ∧ (complementIf true (aluState 1 0xFFFFFFFF |>.readReg r1 0)).toNat = 0
    ∧ (complementIf false (aluState 1 0xFFFFFFFF |>.readReg r1 0)).toNat = 0xFFFFFFFF := by decide
theorem witness_DivOneRegister : r2 = r2 ∧ blank.laneActive 0 = true ∧ r2.backed = true := by decide
theorem witness_SubUndoesAdd : r2.backed = true ∧ r1.backed = true ∧ r2 ≠ r1 ∧ blank.laneActive 0 = true := by decide

theorem witness_Horizontal : (tagOf 0x010E1024 = opcArith ∧ (opOf 0x010E1024).toNat ≤ 5 ∧ horizontalOf 0x010E1024 = true)
    ∧ (tagOf 0x0B0E1024 = opcArith ∧ (opOf 0x0B0E1024).toNat ≤ 5 ∧ horizontalOf 0x0B0E1024 = true) := by decide
theorem witness_Horizontal_form : Instr.illegalArithHorizontalOp5 ∈ horizontalForms := by simp [horizontalForms]
theorem witness_Unknown : 9 ≤ (tagOf 0x00000009).toNat ∧ 9 ≤ (tagOf 0xFFFFFFFF).toNat
    ∧ (tagOf 0x0C0E1024 = opcArith ∧ 6 ≤ (opOf 0x0C0E1024).toNat)
    ∧ (tagOf 0x0F0E1024 = opcArith ∧ 6 ≤ (opOf 0x0F0E1024).toNat) := by decide
theorem witness_Unknown_form : Instr.illegalTag15 ∈ unknownTagForms ∧ Instr.illegalArithOp7 ∈ unknownOpForms := by
  simp [unknownTagForms, unknownOpForms]

/-- The zero test holds. -/
theorem zeros (sp : Word) : ActiveLanesZero r0 (branchState 0 sp) := of_lanes 0 rfl fun i => by
  obtain rfl : i = 0 := by omega
  rfl
/-- The zero test fails. -/
theorem ones (sp : Word) : ¬ ActiveLanesZero r0 (branchState 1 sp) := fun h => by
  have : (branchState 1 sp).readReg r0 0 = 0 := h 0 rfl
  exact absurd (show (1 : Word) = 0 from this) (by decide)

theorem witness_Jz : ActiveLanesZero r0 (branchState 0 0x100) ∧ ¬ ActiveLanesZero r0 (branchState 1 0x100) :=
  ⟨zeros _, ones _⟩
/-- `sp` at both ends of its range where the branch calls, and anything where it is not taken (CT14). -/
theorem witness_Bz : ((branchState 0 4).mem.wf = true ∧ ActiveLanesZero r0 (branchState 0 4)
      ∧ 4 ≤ (branchState 0 4).sp.toNat ∧ (branchState 0 4).sp.toNat ≤ (branchState 0 4).mem.len)
    ∧ (ActiveLanesZero r0 (branchState 0 0x100) ∧ 4 ≤ (branchState 0 0x100).sp.toNat
      ∧ (branchState 0 0x100).sp.toNat ≤ (branchState 0 0x100).mem.len)
    ∧ (ActiveLanesZero r0 (branchState 1 3) → true = true →
        4 ≤ (branchState 1 3).sp.toNat ∧ (branchState 1 3).sp.toNat ≤ (branchState 1 3).mem.len) :=
  ⟨⟨by decide, zeros _, by decide⟩, ⟨zeros _, by decide⟩, fun h => absurd h (ones _)⟩
theorem witness_CallWithNoRoom : ActiveLanesZero r0 (branchState 0 3) ∧ (branchState 0 3).sp.toNat < 4 :=
  ⟨zeros _, by decide⟩
theorem witness_CallAboveMemory : ActiveLanesZero r0 (branchState 0 0x101) ∧ 4 ≤ (branchState 0 0x101).sp.toNat
    ∧ (branchState 0 0x101).mem.len < (branchState 0 0x101).sp.toNat := ⟨zeros _, by decide⟩
/-- The memory shorter than 4 bytes, with the least `sp` at which a push passes its end. -/
theorem witness_CallAboveMemory_short : ActiveLanesZero .rf (codeState 3 0 []) ∧ 4 ≤ (codeState 3 0 []).sp.toNat
    ∧ (codeState 3 0 []).mem.len < (codeState 3 0 []).sp.toNat := ⟨fun _ _ => rfl, by decide⟩
theorem witness_Ret : (branchState 0 0xFC).sp.toNat + 4 ≤ (branchState 0 0xFC).mem.len
    ∧ (branchState 0 0xFD).mem.len < (branchState 0 0xFD).sp.toNat + 4 := by decide
theorem witness_ReturnComesBack : (branchState 0 4).mem.wf = true ∧ ActiveLanesZero r0 (branchState 0 4)
    ∧ 4 ≤ (branchState 0 4).sp.toNat ∧ (branchState 0 4).sp.toNat ≤ (branchState 0 4).mem.len :=
  ⟨by decide, zeros _, by decide⟩
theorem witness_Branches : (∀ i, (setBits 0 [false] blank).laneActive i = false) ∧ blank.laneActive 0 = true :=
  ⟨no_lanes 0 (by decide) (by decide), by decide⟩

theorem witness_StepIsFetchThenExecute : (blank.setStatus (.hostRequest 1)).isRunning = false
    ∧ (let s := setMemory 4 [0x08, 0, 0, 0] (codeState 8 4 [])
      s.isRunning = true ∧ s.ip.toNat + 4 ≤ s.mem.len
        ∧ ∀ k : Fin 4, bits (8 * k) 8 0x00000008 = s.mem.byte (s.ip.toNat + k))
    ∧ (codeState 8 5 []).isRunning = true ∧ (codeState 8 5 []).mem.len < (codeState 8 5 []).ip.toNat + 4 := by decide
theorem witness_Resume : (∀ n, (blank.setStatus (.faulted (.fetchOutOfBounds 0))).status ≠ .hostRequest n)
    ∧ (blank.setStatus (.hostRequest 7)).status = .hostRequest 7 ∧ blank.isRunning = true :=
  ⟨fun _ h => (by cases h), rfl, rfl⟩
/-- A push at both ends of its range. -/
theorem witness_HostPushAndPop : ((branchState 0 4).mem.wf = true ∧ 4 ≤ (branchState 0 4).sp.toNat
      ∧ (branchState 0 4).sp.toNat ≤ (branchState 0 4).mem.len)
    ∧ (branchState 0 0x100).sp.toNat ≤ (branchState 0 0x100).mem.len
    ∧ (branchState 0 0xFC).sp.toNat + 4 ≤ (branchState 0 0xFC).mem.len := by decide
/-- Each failing operation, on a core with a host request and on a running core. -/
theorem witness_HostPushAndPop_faults : ((∀ c, ((branchState 0 3).setStatus (.hostRequest 0)).status ≠ .faulted c)
      ∧ ((branchState 0 3).setStatus (.hostRequest 0)).sp.toNat < 4)
    ∧ ((∀ c, (branchState 0 0x101).status ≠ .faulted c) ∧ 4 ≤ (branchState 0 0x101).sp.toNat
      ∧ (branchState 0 0x101).mem.len < (branchState 0 0x101).sp.toNat)
    ∧ ((∀ c, (branchState 0 0xFD).status ≠ .faulted c)
      ∧ (branchState 0 0xFD).mem.len < (branchState 0 0xFD).sp.toNat + 4) :=
  ⟨⟨fun _ h => (by cases h), by decide⟩, ⟨fun _ h => (by cases h), by decide⟩, fun _ h => (by cases h), by decide⟩
theorem witness_HostPushAndPop_faulted : let s := (branchState 0 0x101).setStatus (.faulted (.stackPushUnderflow 3))
    s.status = .faulted (.stackPushUnderflow 3) ∧ (s.sp.toNat < 4 ∨ s.mem.len < s.sp.toNat)
      ∧ s.mem.len < s.sp.toNat + 4 := by decide
theorem witness_HostWrites : blank.mem.wf = true ∧ 0xFF < blank.mem.len ∧ blank.mem.len ≤ 0x100 := by decide

/-- Two states that differ in lane 1, masked off, and in lane 2, above `vlen`. -/
theorem witness_VectorIgnores : let s := setBits 1 [false] (blank.setVlen 1)
    let u := setLanes r0 1 [5, 7] s
    vectorized (.memoryStore r1 r0 3) = true ∧ u.mask = s.mask ∧ u.vlen = s.vlen ∧ u.ip = s.ip ∧ u.sp = s.sp
      ∧ u.status = s.status ∧ u.mem = s.mem ∧ (∀ r j, s.laneActive j = true → u.readReg r j = s.readReg r j)
      ∧ u.readReg r0 1 ≠ s.readReg r0 1 := by
  refine ⟨rfl, rfl, rfl, rfl, rfl, rfl, rfl, fun r j hj => ?_, by decide⟩
  have h1 : j ≠ 1 := fun h => by
    subst h
    revert hj
    decide
  have h2 : j ≠ 2 := fun h => by
    subst h
    revert hj
    decide
  simp [setLanes, State.readReg_writeReg, h1, h2]
/-- A byte no active lane reaches, and a status that changes. -/
theorem witness_VectorIgnores_access :
    (memoryAccess (.memoryStore r1 r0 3) = some (r0, 4)
      ∧ ∀ j, overlap.laneActive j = true → ¬ LaneReaches r0 4 overlap j 0xF9)
    ∧ see (exec (.memoryLoad r1 r0 3) secondLaneOut) (·.status) = some (.faulted (.memoryOutOfBounds 0xFD 4 1))
    ∧ secondLaneOut.status = .running :=
  ⟨⟨rfl, of_lanes 1 (by decide) (by unfold LaneReaches; decide)⟩, by decide⟩
theorem witness_NoActiveLane : vectorized (.memoryLoad r1 .rt 3) = true
    ∧ ∀ j, (setBits 0 [false, false] (blank.setVlen 1)).laneActive j = false :=
  ⟨rfl, no_lanes 1 (by decide) (by decide)⟩

theorem witness_ControlState : (see (exec (.vlenset 1) blank) (·.vlen)) = some 1 ∧ blank.vlen ≠ 1
    ∧ (see (exec (.maskset .rf) blank) (·.readMask 0)) = some false ∧ blank.readMask 0 ≠ false
    ∧ (see (exec .ret (branchState 0 0xFC)) (·.sp)) = some 0x100 ∧ (branchState 0 0xFC).sp ≠ 0x100
    ∧ (see (exec (.jz .rf 4) (branchState 0 0)) (·.ip)) = some 0x28 ∧ (branchState 0 0).ip ≠ 0x28 := by decide
theorem witness_OnlyStores : see (exec (.memoryStore .rt r0 0) (memState 0x10)) (·.mem.byte 0x10) = some 0xFF
    ∧ (memState 0x10).mem.byte 0x10 ≠ 0xFF := by decide
theorem witness_RegistersChange : see (exec (.copyLower r0 1) blank) (·.readReg r0 0) = some 1
    ∧ blank.readReg r0 0 ≠ 1 := by decide
theorem witness_EachFault : see (exec (.bz .rf true 0) (branchState 0 3)) (·.status)
    = some (.faulted (.stackPushUnderflow 3)) ∧ (branchState 0 3).status ≠ .faulted (.stackPushUnderflow 3) := by decide

end Sys2Proof.Tests
end

section
/-! PROOFS. The obligations of 10_state.md: the register and mask accessors (R24, R25, R28, R29) and the
first step after `Init` (R45). -/

namespace Sys2Proof.Machine

/-! ### The accessors lane by lane -/

/-- A backed register reads what is stored in an existing lane (10_state.md R24). -/
theorem State.readReg_gpr (s : State) (n : Fin 14) (i : Fin 256) :
    s.readReg (.gpr n) i = (s.regs.get n).get i :=
  dif_pos i.isLt

/-- A lane out of range of a backed register reads 0 (10_state.md R24). -/
theorem State.readReg_gpr_of_le (s : State) (n : Fin 14) {i : Nat} (hi : 256 ≤ i) :
    s.readReg (.gpr n) i = 0 :=
  dif_neg (Nat.not_lt.mpr hi)

/-- A write to a lane out of range is dropped (10_state.md R25). -/
theorem State.writeReg_of_le (s : State) (r : Reg) {i : Nat} (v : Word) (hi : 256 ≤ i) :
    s.writeReg r i v = s := by
  cases r with
  | rf => rfl
  | rt => rfl
  | gpr n => exact dif_neg (Nat.not_lt.mpr hi)

/-- A mask bit in range reads what is stored (10_state.md R28). -/
theorem State.readMask_fin (s : State) (i : Fin 256) : s.readMask i = s.mask.get i :=
  dif_pos i.isLt

/-- A mask bit out of range reads false (10_state.md R28). -/
theorem State.readMask_of_le (s : State) {i : Nat} (hi : 256 ≤ i) : s.readMask i = false :=
  dif_neg (Nat.not_lt.mpr hi)

/-- A write to a mask bit out of range is dropped (10_state.md R29). -/
theorem State.writeMask_of_le (s : State) {i : Nat} (b : Bool) (hi : 256 ≤ i) : s.writeMask i b = s :=
  dif_neg (Nat.not_lt.mpr hi)

/-! ### What a write leaves alone -/

/-- The frame of a register write, whatever register and lane it names. -/
theorem State.sameOutsideRegs_writeReg (s : State) (r : Reg) (i : Nat) (v : Word) :
    SameOutsideRegs s (s.writeReg r i v) := by
  simp [SameOutsideRegs, SameMask, SameMem]

/-- The frame of a mask write, whatever bit it names. -/
theorem State.sameOutsideMask_writeMask (s : State) (i : Nat) (b : Bool) :
    SameOutsideMask s (s.writeMask i b) := by
  simp [SameOutsideMask, SameRegs, SameMem]

/-! ### A fetch and a step from the bytes at `ip` -/

/-- A fetch in bounds gives the word whose little-endian bytes stand at `ip` (40_execution_cycle.md R122). -/
theorem fetch_of_bytes {s : State} {w : Word} (hl : s.ip.toNat + 4 ≤ s.mem.len)
    (hw : ∀ k, k < 4 → bits (8 * k) 8 w = s.mem.byte (s.ip.toNat + k)) :
    fetch s = .ok (w, s.setIp (s.ip + 4)) := by
  have hword : leWord (s.mem.bytes s.ip.toNat 4) = w := word_ext_bits fun k hk => by
    rw [bits_leWord _ k hk, Memory.getElem?_bytes, if_pos hk, Option.getD_some, hw k hk]
  rw [fetch_of_inBounds hl, hword]

/-- The step of a running core whose fetch succeeds is `Execute` of the fetched word. -/
theorem step_of_fetch_ok {s t : State} {w : Word} (hr : s.isRunning = true) (hf : fetch s = .ok (w, t)) :
    step s = execute w t := by
  rw [step_of_running hr, hf]

/-! ### The obligations -/

/-- Settles O15: the range clauses are the accessors' own cases, and the last clause is
`readReg_writeReg` with the frame of a register write. -/
theorem registerAccess : Obligations.RegisterAccess := by
  refine ⟨fun s i => ⟨s.readReg_rf i, s.readReg_rt i⟩, fun s n _ hi => s.readReg_gpr_of_le n hi,
    State.readReg_gpr, fun s i v => ⟨s.writeReg_rf i v, s.writeReg_rt i v⟩,
    fun s n _ v hi => s.writeReg_of_le (.gpr n) v hi,
    fun s n i v hi => ⟨s.sameOutsideRegs_writeReg (.gpr n) i v, ?_, fun r j hne => ?_⟩⟩
  · rw [State.readReg_writeReg, if_pos ⟨rfl, rfl, rfl, hi⟩]
  · rw [State.readReg_writeReg, if_neg]
    rintro ⟨hr, hj, -⟩
    exact hne.elim (· hr) (· hj)

/-- Settles O16: the range clauses are the accessors' own cases, and the last clause is
`readMask_writeMask` with the frame of a mask write. -/
theorem maskAccess : Obligations.MaskAccess := by
  refine ⟨fun s _ hi => s.readMask_of_le hi, State.readMask_fin, fun s _ b hi => s.writeMask_of_le b hi,
    fun s i b hi => ⟨s.sameOutsideMask_writeMask i b, ?_, fun j hne => ?_⟩⟩
  · rw [State.readMask_writeMask, if_pos ⟨rfl, hi⟩]
  · rw [State.readMask_writeMask, if_neg fun h => hne h.1]

/-- Settles O8: after `Init` the core runs with `ip` at 0 and the memory it had, so its step fetches the
word at addresses 0 to 3. -/
theorem resetVectorIsAddressZero : Obligations.ResetVectorIsAddressZero := by
  intro top s w hlen hw
  have hip : (hostInit top s).ip.toNat = 0 := rfl
  have hfetch : fetch (hostInit top s) = .ok (w, (hostInit top s).setIp 4) :=
    fetch_of_bytes (by rwa [hip]) fun k hk => by
      rw [hip, Nat.zero_add]
      exact hw k hk
  exact step_of_fetch_ok rfl hfetch

end Sys2Proof.Machine
end

section
/-! PROOFS. The obligation of 40_execution_cycle.md: a step is a fetch and an `Execute` (R120, R122). Its one
idea: an instruction that does not execute as a fault leaves a status in which no word is recorded, so `Execute`,
which puts its word there (60_exceptions.md R241), answers what `exec` answers. -/

namespace Sys2Proof.Machine

/-! ### Statuses in which no instruction word is recorded -/

/-- The status records no instruction word: there is no place in it for `Execute` to put one. -/
def Status.RecordsNoWord (x : Status) : Prop := ∀ w : Word, x.ofWord w = x

theorem Status.recordsNoWord_running : Status.RecordsNoWord .running := fun _ => rfl

theorem Status.recordsNoWord_hostRequest (n : BitVec 16) : (Status.hostRequest n).RecordsNoWord := fun _ => rfl

theorem Status.recordsNoWord_memoryOutOfBounds (a : Word) (n i : Nat) :
    (Status.faulted (.memoryOutOfBounds a n i)).RecordsNoWord := fun _ => rfl

theorem Status.recordsNoWord_stackPushUnderflow (a : Word) :
    (Status.faulted (.stackPushUnderflow a)).RecordsNoWord := fun _ => rfl

theorem Status.recordsNoWord_stackOutOfBounds (a : Word) :
    (Status.faulted (.stackOutOfBounds a)).RecordsNoWord := fun _ => rfl

/-! ### The instructions that do not execute as a fault record no word -/

/-- A load records at most a memory fault. -/
theorem load_recordsNoWord (reg ptr : Reg) (n : Nat) {s : State} (hs : s.status.RecordsNoWord) :
    (forActiveLanes (loadLane reg ptr n) s).status.RecordsNoWord := by
  rcases load_cases reg ptr n s with h | ⟨u, i, -, -, -, h⟩
  · obtain ⟨-, -, -, -, hstatus, -⟩ := h.fields
    rwa [hstatus]
  · rw [h]
    exact Status.recordsNoWord_memoryOutOfBounds _ _ _

/-- A lane of a store keeps the status, or faults in memory. -/
theorem storeLane_cases (reg ptr : Reg) (n i : Nat) (s : State) :
    (∃ m, storeLane reg ptr n i s = .ok (s.setMem m))
      ∨ ∃ a, storeLane reg ptr n i s = .error (.memoryOutOfBounds a n i) := by
  unfold storeLane
  split
  · exact .inl ⟨_, rfl⟩
  · exact .inr ⟨_, rfl⟩

/-- A store records at most a memory fault, whatever the form of the memory. -/
theorem store_recordsNoWord (reg ptr : Reg) (n : Nat) {s : State} (hs : s.status.RecordsNoWord) :
    (forActiveLanes (storeLane reg ptr n) s).status.RecordsNoWord := by
  have keep : ∀ i ∈ s.enabledLanes, ∀ u v : State, u.status.RecordsNoWord → u.readMask i = true →
      storeLane reg ptr n i u = .ok v → v.status.RecordsNoWord := by
    intro i _ u v hu _ hv
    rcases storeLane_cases reg ptr n i u with ⟨m, h⟩ | ⟨a, h⟩
    · rw [h, Except.ok.injEq] at hv
      exact hv ▸ hu
    · rw [h] at hv
      cases hv
  rcases runLanes_cases (fun u => u.status.RecordsNoWord) s.enabledLanes keep hs with h | ⟨i, -, u, c, -, -, hc, h⟩
  · exact h
  · rcases storeLane_cases reg ptr n i u with ⟨m, hm⟩ | ⟨a, ha⟩
    · rw [hm] at hc
      cases hc
    · rw [ha, Except.error.injEq] at hc
      rw [forActiveLanes, h, ← hc]
      exact Status.recordsNoWord_memoryOutOfBounds _ _ _

/-- An operation that changes registers only keeps the status. -/
theorem OnlyRegs.recordsNoWord {s t : State} (h : OnlyRegs s t) (hs : s.status.RecordsNoWord) :
    t.status.RecordsNoWord := by
  obtain ⟨-, -, -, -, hstatus, -⟩ := h.fields
  rwa [hstatus]

/-- `maskset` keeps the status. -/
theorem maskLanes_recordsNoWord (src : Reg) (l : List Nat) {s : State} (hs : s.status.RecordsNoWord) :
    (maskLanes src l s).status.RecordsNoWord := by
  rwa [maskLanes_fields]

/-- A taken `bz` with `save_ip` records at most a stack fault. -/
theorem callBranch_recordsNoWord (offset : BitVec 16) {s : State} (hs : s.status.RecordsNoWord) :
    (orRaise s (callBranch offset s)).status.RecordsNoWord := by
  rcases call_cases offset s with ⟨-, h⟩ | ⟨-, -, h⟩ | ⟨-, -, h⟩
  · rw [h]
    exact Status.recordsNoWord_stackPushUnderflow _
  · rw [h]
    exact Status.recordsNoWord_stackOutOfBounds _
  · rwa [h]

/-- `ret` records at most a stack fault. -/
theorem returnBranch_recordsNoWord {s : State} (hs : s.status.RecordsNoWord) :
    (orRaise s (returnBranch s)).status.RecordsNoWord := by
  rcases ret_cases s with ⟨-, h⟩ | ⟨-, h⟩
  · rw [h]
    exact Status.recordsNoWord_stackOutOfBounds _
  · rwa [h]

/-- An instruction that does not execute as a fault answers a next state whose status records no word, if that of
the state it ran on recorded none. -/
theorem exec_recordsNoWord {i : Instr} {s : State} (hi : executesAsFault i = false)
    (hs : s.status.RecordsNoWord) : ∃ t, exec i s = .next t ∧ t.status.RecordsNoWord := by
  cases i with
  | vlenset value => exact ⟨_, rfl, hs⟩
  | maskset src => exact ⟨_, rfl, maskLanes_recordsNoWord src _ hs⟩
  | memoryLoad reg ptr bytesCount => exact ⟨_, rfl, load_recordsNoWord reg ptr _ hs⟩
  | memoryStore reg ptr bytesCount => exact ⟨_, rfl, store_recordsNoWord reg ptr _ hs⟩
  | copyLower dst value => exact ⟨_, rfl, (copy_onlyRegs _ dst value s).recordsNoWord hs⟩
  | copyUpper dst value => exact ⟨_, rfl, (copy_onlyRegs _ dst value s).recordsNoWord hs⟩
  | arithAdd o | arithSub o | arithMul o | arithDiv o | arithAnd o | arithXor o =>
    exact ⟨_, rfl, (arith_onlyRegs _ o s).recordsNoWord hs⟩
  | jz flag offset =>
    refine ⟨_, rfl, ?_⟩
    split
    · exact hs
    · exact hs
  | bz flag saveIp offset =>
    refine ⟨_, rfl, ?_⟩
    split
    · split
      · exact callBranch_recordsNoWord offset hs
      · exact hs
    · exact hs
  | ret => exact ⟨_, rfl, returnBranch_recordsNoWord hs⟩
  | inter number => exact ⟨_, rfl, Status.recordsNoWord_hostRequest number⟩
  | _ => cases hi

/-- `Execute` of a word that does not execute as a fault is the meaning of its decoding
(40_execution_cycle.md R123), on a state whose status records no word. -/
theorem execute_eq_exec {w : Word} {s : State} (hw : executesAsFault (decode w) = false)
    (hs : s.status.RecordsNoWord) : execute w s = exec (decode w) s := by
  obtain ⟨t, ht, hword⟩ := exec_recordsNoWord hw hs
  rw [execute_of_exec ht, hword w, State.setStatus_self, ht]

/-! ### A step from the bounds of its fetch -/

/-- `ip + 4` modulo 2^32, as the model's addition of Words. -/
theorem ofNat_toNat_add_four (a : Word) : BitVec.ofNat 32 (a.toNat + 4) = a + 4 := by
  simp [BitVec.ofNat_add]

/-- The step of a running core whose fetch is out of bounds raises its fault (40_execution_cycle.md R121). -/
theorem step_of_outOfBounds {s : State} (hr : s.isRunning = true) (hl : s.mem.len < s.ip.toNat + 4) :
    step s = .next (raise (.fetchOutOfBounds s.ip) s) := by
  rw [step_of_running hr, fetch_of_outOfBounds hl]

/-- Taking a fault changes the status only (60_exceptions.md R246). -/
theorem sameOutsideStatus_raise (c : FaultCause) (s : State) : SameOutsideStatus s (raise c s) := by
  simp [SameOutsideStatus, SameRegs, SameMask, SameMem]

/-! ### The obligation -/

/-- Settles O9: a stopped core and a fetch out of bounds are the step's own cases; in bounds the step is `Execute`
of the fetched word, and a running core's status records no word, so there `Execute` is `exec`. -/
theorem stepFetchesThenExecutes : Obligations.StepFetchesThenExecutes := by
  refine ⟨fun s => step_of_stopped,
    fun s hr hl => ⟨_, step_of_outOfBounds hr hl, rfl, sameOutsideStatus_raise _ s⟩, fun s w hr hl hw => ?_⟩
  rw [ofNat_toNat_add_four]
  have hstep : step s = execute w (s.setIp (s.ip + 4)) := step_of_fetch_ok hr (fetch_of_bytes hl hw)
  have hs : (s.setIp (s.ip + 4)).status.RecordsNoWord := by
    rw [State.status_setIp, status_of_isRunning hr]
    exact Status.recordsNoWord_running
  exact ⟨hstep, fun hword => hstep.trans (execute_eq_exec hword hs)⟩

end Sys2Proof.Machine
end

section
/-! PROOFS. The obligations of 41_vlenset_maskset.md: `vlenset` (R140) and `maskset` (R142). -/

namespace Sys2Proof.Machine

/-! ### What their words decode to -/

/-- Every word with the tag of `vlenset` decodes to it, whatever its other bits (30_encoding.md R83, R97). -/
theorem decode_of_tagOf_eq_opcVlenset {w : Word} (h : tagOf w = opcVlenset) :
    decode w = .vlenset (bits 4 8 w) :=
  if_pos h

/-- Every word with the tag of `maskset` decodes to it, whatever its other bits (30_encoding.md R84, R97). -/
theorem decode_of_tagOf_eq_opcMaskset {w : Word} (h : tagOf w = opcMaskset) :
    decode w = .maskset (regOfBits (bits 4 4 w)) := by
  have hne : tagOf w ≠ opcVlenset := by
    rw [h]
    decide
  exact (if_neg hne).trans (if_pos h)

/-! ### What they leave alone -/

/-- The frame of a write to `vlen`. -/
theorem State.sameOutsideVlen_setVlen (s : State) (v : BitVec 8) : SameOutsideVlen s (s.setVlen v) := by
  simp [SameOutsideVlen, SameRegs, SameMask, SameMem]

/-- The frame of `maskset`'s loop, whatever lanes it goes through. -/
theorem sameOutsideMask_maskLanes (src : Reg) (l : List Nat) (s : State) :
    SameOutsideMask s (maskLanes src l s) := by
  rw [maskLanes_fields]
  simp [SameOutsideMask, SameRegs, SameMem]

/-! ### The mask after `maskset` -/

/-- A lane is true exactly when it is not 0 (41_vlenset_maskset.md R142). -/
theorem laneTruth_iff (v : Word) : laneTruth v = true ↔ v ≠ 0 :=
  bne_iff_ne

/-- The loop over the enabled lanes: up to `vlen` the truth of `src`, above it the old bit
(41_vlenset_maskset.md R142). -/
theorem readMask_maskLanes_enabledLanes (src : Reg) (s : State) (i : Nat) :
    (maskLanes src s.enabledLanes s).readMask i
      = if i ≤ s.vlen.toNat then laneTruth (s.readReg src i) else s.readMask i := by
  have hlanes : ∀ j ∈ s.enabledLanes, j < Config.lanes :=
    fun j hj => s.enabled_lt_lanes ((s.mem_enabledLanes j).1 hj)
  simp only [readMask_maskLanes src _ hlanes, State.mem_enabledLanes]

/-! ### The obligations -/

/-- Settles O21: the loop writes each enabled lane's bit once, from registers that it does not change. -/
theorem masksetTakesTheTruthOfEachEnabledLane : Obligations.MasksetTakesTheTruthOfEachEnabledLane := by
  refine ⟨fun _ => decode_of_tagOf_eq_opcMaskset,
    fun src s => ⟨maskLanes src s.enabledLanes s, rfl, sameOutsideMask_maskLanes src _ s,
      fun i hi => ?_, fun i hi => ?_⟩⟩
  · rw [readMask_maskLanes_enabledLanes, if_pos hi, laneTruth_iff]
  · rw [readMask_maskLanes_enabledLanes, if_neg (Nat.not_le.mpr hi)]

/-- Settles O20: `vlenset` is the one write to `vlen`. -/
theorem vlensetSetsTheLaneCount : Obligations.VlensetSetsTheLaneCount :=
  ⟨fun _ => decode_of_tagOf_eq_opcVlenset,
    fun value s => ⟨s.setVlen value, rfl, rfl, s.sameOutsideVlen_setVlen value⟩⟩

end Sys2Proof.Machine
end

section
/-! PROOFS. The obligation of 70_reset_and_hazards.md about `Fetch` and `Execute` by the host (R288). Its one idea:
a core on which the host's `Fetch` answers a word still runs, so the host's `Execute` of that word is the step's. -/

namespace Sys2Proof.Machine

/-! ### The host's `Fetch` and `Execute`, one equation per case -/

/-- The host's `Fetch` does nothing on a stopped core. -/
theorem hostFetch_of_stopped {s : State} (hr : s.isRunning = false) : hostFetch s = (none, s) := by
  simp [hostFetch, hr]

/-- The host's `Fetch` on a running core answers what a fetch that succeeds gives. -/
theorem hostFetch_of_fetch_ok {s t : State} {w : Word} (hr : s.isRunning = true) (hf : fetch s = .ok (w, t)) :
    hostFetch s = (some w, t) := by
  simp [hostFetch, hr, hf]

/-- The host's `Fetch` on a running core raises the fault of a fetch that is out of bounds. -/
theorem hostFetch_of_outOfBounds {s : State} (hr : s.isRunning = true) (hl : s.mem.len < s.ip.toNat + 4) :
    hostFetch s = (none, raise (.fetchOutOfBounds s.ip) s) := by
  simp [hostFetch, hr, fetch_of_outOfBounds hl]

/-- The host's `Execute` does nothing on a stopped core. -/
theorem hostExecute_of_stopped (w : Word) {s : State} (hr : s.isRunning = false) : hostExecute w s = .next s := by
  simp [hostExecute, hr]

/-- The host's `Execute` on a running core is `Execute`. -/
theorem hostExecute_of_running (w : Word) {s : State} (hr : s.isRunning = true) :
    hostExecute w s = execute w s :=
  if_pos hr

/-! ### The core while it runs -/

/-- A running core's status records no word. -/
theorem recordsNoWord_of_isRunning {s : State} (hr : s.isRunning = true) : s.status.RecordsNoWord := by
  rw [status_of_isRunning hr]
  exact Status.recordsNoWord_running

/-- A fetch that succeeds does not stop the core. -/
theorem isRunning_of_fetch_ok {s t : State} {w : Word} (hr : s.isRunning = true) (hf : fetch s = .ok (w, t)) :
    t.isRunning = true := by
  obtain ⟨-, -, rfl⟩ := fetch_spec hf
  exact hr

/-! ### The obligation -/

/-- Settles O47: a stopped core, a fetch out of bounds and a fetch that succeeds, after which the core still runs,
are the cases of the step and of the host's `Fetch` alike; a running core's status records no word, so there
`Execute` is `exec`. -/
theorem stepIsFetchThenExecute : Obligations.StepIsFetchThenExecute := by
  refine ⟨fun s => ?_, fun s hr => ⟨hostFetch_of_stopped hr, fun w => hostExecute_of_stopped w hr⟩,
    fun s w hr => ⟨hostExecute_of_running w hr, fun hw => ?_⟩, fun s w hr hl hw => ?_, fun s hr hl => ?_⟩
  · cases hr : s.isRunning with
    | false => rw [step_of_stopped hr, hostFetch_of_stopped hr]
    | true =>
      cases hf : fetch s with
      | ok p =>
        rw [step_of_fetch_ok hr hf, hostFetch_of_fetch_ok hr hf]
        exact (hostExecute_of_running _ (isRunning_of_fetch_ok hr hf)).symm
      | error c =>
        obtain ⟨-, hl⟩ := fetch_error hf
        rw [step_of_outOfBounds hr hl, hostFetch_of_outOfBounds hr hl]
  · rw [hostExecute_of_running w hr, execute_eq_exec hw (recordsNoWord_of_isRunning hr)]
  · rw [ofNat_toNat_add_four]
    exact hostFetch_of_fetch_ok hr (fetch_of_bytes hl hw)
  · rw [hostFetch_of_outOfBounds hr hl]
    exact ⟨rfl, rfl, sameOutsideStatus_raise _ s⟩

end Sys2Proof.Machine
end

section
/-! PROOFS. The obligations of 30_encoding.md: what each tag decodes to (R90, R99), the round trips (R100), the rows
of the opcode table, and the byte list (R82). Two facts carry them: the canonical word is the fields put back where
the decoder reads them, and no two rows of the table select one word. -/

namespace Sys2Proof.Machine

/-! ### What each tag decodes to -/

theorem decode_of_tagOf_eq_opcMemory {w : Word} (h : tagOf w = opcMemory) :
    decode w = if bit 17 w then .memoryStore (regAt 4 w) (regAt 8 w) (bits 18 2 w)
      else .memoryLoad (regAt 4 w) (regAt 8 w) (bits 18 2 w) := by
  simp only [decode, h]
  rfl

theorem decode_of_tagOf_eq_opcCopy {w : Word} (h : tagOf w = opcCopy) :
    decode w = if bit 11 w then .copyUpper (regAt 4 w) (bits 12 16 w)
      else .copyLower (regAt 4 w) (bits 12 16 w) := by
  simp only [decode, h]
  rfl

theorem decode_of_tagOf_eq_opcArith {w : Word} (h : tagOf w = opcArith) : decode w = decodeArith w := by
  simp only [decode, h]
  rfl

theorem decode_of_tagOf_eq_opcJz {w : Word} (h : tagOf w = opcJz) :
    decode w = .jz (regAt 4 w) (bits 12 16 w) := by
  simp only [decode, h]
  rfl

theorem decode_of_tagOf_eq_opcBz {w : Word} (h : tagOf w = opcBz) :
    decode w = .bz (regAt 4 w) (bit 11 w) (bits 12 16 w) := by
  simp only [decode, h]
  rfl

theorem decode_of_tagOf_eq_opcRet {w : Word} (h : tagOf w = opcRet) : decode w = .ret := by
  simp only [decode, h]
  rfl

theorem decode_of_tagOf_eq_opcInter {w : Word} (h : tagOf w = opcInter) :
    decode w = .inter (bits 4 16 w) := by
  simp only [decode, h]
  rfl

/-- The seven tags that name no instruction, each with the constructor that keeps its words (30_encoding.md R96). -/
theorem decode_of_unknown_tag (w : Word) :
    (tagOf w = 9 → decode w = .illegalTag9 w) ∧ (tagOf w = 10 → decode w = .illegalTag10 w)
      ∧ (tagOf w = 11 → decode w = .illegalTag11 w) ∧ (tagOf w = 12 → decode w = .illegalTag12 w)
      ∧ (tagOf w = 13 → decode w = .illegalTag13 w) ∧ (tagOf w = 14 → decode w = .illegalTag14 w)
      ∧ (tagOf w = 15 → decode w = .illegalTag15 w) := by
  refine ⟨?_, ?_, ?_, ?_, ?_, ?_, ?_⟩ <;>
  · intro h
    simp only [decode, decodeUnknown, h]
    rfl

/-- The tags, by number. -/
theorem tag_cases (t : BitVec 4) :
    t = opcVlenset ∨ t = opcMaskset ∨ t = opcMemory ∨ t = opcCopy ∨ t = opcArith ∨ t = opcJz ∨ t = opcBz
      ∨ t = opcRet ∨ t = opcInter ∨ t = 9 ∨ t = 10 ∨ t = 11 ∨ t = 12 ∨ t = 13 ∨ t = 14 ∨ t = 15 := by
  revert t
  decide

/-! ### `arith`, from its operation, its `horizontal` bit and its operands -/

/-- The instruction an `arith` word stands for, from the three parts that `decodeArith` reads. -/
def arithForm (op : BitVec 3) (h : Bool) (o : ArithOperands) : Instr :=
  if op = aluAdd then (if h then .illegalArithHorizontalOp0 o else .arithAdd o)
  else if op = aluSub then (if h then .illegalArithHorizontalOp1 o else .arithSub o)
  else if op = aluMul then (if h then .illegalArithHorizontalOp2 o else .arithMul o)
  else if op = aluDiv then (if h then .illegalArithHorizontalOp3 o else .arithDiv o)
  else if op = aluAnd then (if h then .illegalArithHorizontalOp4 o else .arithAnd o)
  else if op = aluXor then (if h then .illegalArithHorizontalOp5 o else .arithXor o)
  else if op = 6 then .illegalArithOp6 ⟨o, h⟩
  else .illegalArithOp7 ⟨o, h⟩

theorem decodeArith_eq (w : Word) :
    decodeArith w = arithForm (opOf w) (horizontalOf w) (arithOperandsOf w) := rfl

/-- The operations, by number. -/
theorem op_cases (op : BitVec 3) :
    op = aluAdd ∨ op = aluSub ∨ op = aluMul ∨ op = aluDiv ∨ op = aluAnd ∨ op = aluXor ∨ op = 6 ∨ op = 7 := by
  revert op
  decide

/-- The canonical word, the ignored bits and the kept word of an `arith` form. -/
theorem arithForm_spec (op : BitVec 3) (h : Bool) (o : ArithOperands) :
    encode (arithForm op h o) = encodeArith op h o ∧ (arithForm op h o).row.ignored = 0xF0000000
      ∧ (arithForm op h o).keptWord = none := by
  rcases op_cases op with rfl | rfl | rfl | rfl | rfl | rfl | rfl | rfl <;> cases h <;> exact ⟨rfl, rfl, rfl⟩

theorem tagOf_encodeArith (op : BitVec 3) (h : Bool) (o : ArithOperands) :
    tagOf (encodeArith op h o) = opcArith := by
  simp [tagOf, encodeArith, flagField, bits_field_same, bits_field_apart]

theorem opOf_encodeArith (op : BitVec 3) (h : Bool) (o : ArithOperands) :
    opOf (encodeArith op h o) = op := by
  simp [opOf, encodeArith, flagField, bits_field_same, bits_field_apart]

theorem horizontalOf_encodeArith (op : BitVec 3) (h : Bool) (o : ArithOperands) :
    horizontalOf (encodeArith op h o) = h := by
  have hbit : bit 24 (field 24 (BitVec.ofBool h)) = h := bit_flagField_same 24 h (by decide)
  simp [horizontalOf, encodeArith, flagField, hbit, bit_field_apart]

theorem arithOperandsOf_encodeArith (op : BitVec 3) (h : Bool) (o : ArithOperands) :
    arithOperandsOf (encodeArith op h o) = o := by
  have hflag (k : Nat) (b : Bool) (hk : k < 32) : bit k (field k (BitVec.ofBool b)) = b := bit_flagField_same k b hk
  simp [arithOperandsOf, regAt, encodeArith, flagField, hflag, bit_field_apart, bits_field_same, bits_field_apart]

/-- The round trip of every `arith` word. -/
theorem decode_encodeArith (op : BitVec 3) (h : Bool) (o : ArithOperands) :
    decode (encodeArith op h o) = arithForm op h o := by
  rw [decode_of_tagOf_eq_opcArith (tagOf_encodeArith op h o), decodeArith_eq, opOf_encodeArith,
    horizontalOf_encodeArith, arithOperandsOf_encodeArith]

/-! ### The rows of the table -/

/-- The canonical word of a well-formed instruction selects the instruction's row. -/
theorem selects_encode {i : Instr} (h : i.wf = true) : i.row.selects (encode i) = true := by
  cases i with
  | vlenset v => exact Laws.EncodesIntoRow.vlenset v h
  | maskset r => exact Laws.EncodesIntoRow.maskset r h
  | memoryLoad r p c => exact Laws.EncodesIntoRow.memoryLoad r p c h
  | memoryStore r p c => exact Laws.EncodesIntoRow.memoryStore r p c h
  | copyLower r v => exact Laws.EncodesIntoRow.copyLower r v h
  | copyUpper r v => exact Laws.EncodesIntoRow.copyUpper r v h
  | arithAdd o => exact Laws.EncodesIntoRow.arithAdd o h
  | arithSub o => exact Laws.EncodesIntoRow.arithSub o h
  | arithMul o => exact Laws.EncodesIntoRow.arithMul o h
  | arithDiv o => exact Laws.EncodesIntoRow.arithDiv o h
  | arithAnd o => exact Laws.EncodesIntoRow.arithAnd o h
  | arithXor o => exact Laws.EncodesIntoRow.arithXor o h
  | jz r o => exact Laws.EncodesIntoRow.jz r o h
  | bz r b o => exact Laws.EncodesIntoRow.bz r b o h
  | ret => exact Laws.EncodesIntoRow.ret h
  | inter n => exact Laws.EncodesIntoRow.inter n h
  | illegalArithHorizontalOp0 o => exact Laws.EncodesIntoRow.illegalArithHorizontalOp0 o h
  | illegalArithHorizontalOp1 o => exact Laws.EncodesIntoRow.illegalArithHorizontalOp1 o h
  | illegalArithHorizontalOp2 o => exact Laws.EncodesIntoRow.illegalArithHorizontalOp2 o h
  | illegalArithHorizontalOp3 o => exact Laws.EncodesIntoRow.illegalArithHorizontalOp3 o h
  | illegalArithHorizontalOp4 o => exact Laws.EncodesIntoRow.illegalArithHorizontalOp4 o h
  | illegalArithHorizontalOp5 o => exact Laws.EncodesIntoRow.illegalArithHorizontalOp5 o h
  | illegalArithOp6 u => exact Laws.EncodesIntoRow.illegalArithOp6 u h
  | illegalArithOp7 u => exact Laws.EncodesIntoRow.illegalArithOp7 u h
  | illegalTag9 w => exact Laws.EncodesIntoRow.illegalTag9 w h
  | illegalTag10 w => exact Laws.EncodesIntoRow.illegalTag10 w h
  | illegalTag11 w => exact Laws.EncodesIntoRow.illegalTag11 w h
  | illegalTag12 w => exact Laws.EncodesIntoRow.illegalTag12 w h
  | illegalTag13 w => exact Laws.EncodesIntoRow.illegalTag13 w h
  | illegalTag14 w => exact Laws.EncodesIntoRow.illegalTag14 w h
  | illegalTag15 w => exact Laws.EncodesIntoRow.illegalTag15 w h

/-- A word selects a row when the bits the row tests are those of its pattern. -/
theorem selects_iff (r : OpcodeRow) (w : Word) : r.selects w = true ↔ w &&& r.mask = r.pattern :=
  beq_iff_eq

/-- The opcode table: the rows of an instruction of each constructor. -/
def opcodeTable : List OpcodeRow :=
  let o : ArithOperands := ⟨.rf, .rf, .rf, .rf, false, false, false, false⟩
  [Instr.vlenset 0, .maskset .rf, .memoryLoad .rf .rf 0, .memoryStore .rf .rf 0, .copyLower .rf 0, .copyUpper .rf 0,
    .arithAdd o, .arithSub o, .arithMul o, .arithDiv o, .arithAnd o, .arithXor o, .jz .rf 0, .bz .rf false 0, .ret,
    .inter 0, .illegalArithHorizontalOp0 o, .illegalArithHorizontalOp1 o, .illegalArithHorizontalOp2 o,
    .illegalArithHorizontalOp3 o, .illegalArithHorizontalOp4 o, .illegalArithHorizontalOp5 o,
    .illegalArithOp6 ⟨o, false⟩, .illegalArithOp7 ⟨o, false⟩, .illegalTag9 0, .illegalTag10 0, .illegalTag11 0,
    .illegalTag12 0, .illegalTag13 0, .illegalTag14 0, .illegalTag15 0].map Instr.row

theorem row_mem_opcodeTable (i : Instr) : i.row ∈ opcodeTable := by
  cases i <;> simp [opcodeTable, Instr.row]

/-- No row tests a bit it ignores. -/
theorem opcodeTable_tests_no_ignored : ∀ r ∈ opcodeTable, ~~~r.ignored &&& r.mask = r.mask := by
  decide

/-- Every row tests the tag. -/
theorem opcodeTable_tests_tag : ∀ r ∈ opcodeTable, bits 0 4 r.mask = BitVec.allOnes 4 := by
  decide

/-- Some bit that both rows test tells them apart. -/
def RowsClash (r q : OpcodeRow) : Prop := r.pattern &&& q.mask ≠ q.pattern &&& r.mask

/-- Every two rows of the table clash. -/
theorem opcodeTable_clash : opcodeTable.Pairwise RowsClash := by
  unfold RowsClash
  decide

/-- Whether an instruction's row selects a word does not depend on the bits it ignores. -/
theorem selects_and_not_ignored (i : Instr) (w : Word) :
    i.row.selects (w &&& ~~~i.row.ignored) = i.row.selects w := by
  rw [OpcodeRow.selects, OpcodeRow.selects, BitVec.and_assoc,
    opcodeTable_tests_no_ignored _ (row_mem_opcodeTable i)]

/-- A word that selects a row has the row's tag. -/
theorem tagOf_of_selects {i : Instr} {w : Word} (h : i.row.selects w = true) :
    tagOf w = tagOf i.row.pattern :=
  bits_eq_of_and ((selects_iff i.row w).1 h) (opcodeTable_tests_tag _ (row_mem_opcodeTable i))

/-- A word selects one row only. -/
theorem row_eq_of_selects {i j : Instr} {w : Word} (hi : i.row.selects w = true) (hj : j.row.selects w = true) :
    i.row = j.row := by
  have hsymm : Std.Symm RowsClash := ⟨fun _ _ h e => h e.symm⟩
  by_contra hne
  refine opcodeTable_clash.forall (row_mem_opcodeTable i) (row_mem_opcodeTable j) hne ?_
  rw [← (selects_iff i.row w).1 hi, ← (selects_iff j.row w).1 hj, BitVec.and_assoc, BitVec.and_assoc,
    BitVec.and_comm i.row.mask]

/-- The instructions that keep a whole word are those whose row's tag is above 8 (30_encoding.md R99). -/
theorem keptWord_isSome (i : Instr) : i.keptWord.isSome = (8#4).ult (tagOf i.row.pattern) := by
  cases i <;> simp only [Instr.keptWord, Instr.row, Option.isSome_none, Option.isSome_some] <;> decide

/-! ### The round trips -/

theorem wf_of_keptWord_eq_none {i : Instr} (h : i.keptWord = none) : i.wf = true := by
  simp [Instr.wf, h]

/-- The round trip of both forms of `memory`. -/
theorem decode_encodeMemory (store : Bool) (r p : Reg) (c : BitVec 2) :
    decode (encodeMemory store r p c) = if store then .memoryStore r p c else .memoryLoad r p c := by
  have hbit : bit 17 (field 17 (BitVec.ofBool store)) = store := bit_flagField_same 17 store (by decide)
  have htag : tagOf (encodeMemory store r p c) = opcMemory := by
    simp [tagOf, encodeMemory, flagField, bits_field_same, bits_field_apart]
  rw [decode_of_tagOf_eq_opcMemory htag]
  simp [regAt, encodeMemory, flagField, hbit, bit_field_apart, bits_field_same, bits_field_apart]

/-- The round trip of both forms of `copy`. -/
theorem decode_encodeCopy (upper : Bool) (r : Reg) (v : BitVec 16) :
    decode (encodeCopy upper r v) = if upper then .copyUpper r v else .copyLower r v := by
  have hbit : bit 11 (field 11 (BitVec.ofBool upper)) = upper := bit_flagField_same 11 upper (by decide)
  have htag : tagOf (encodeCopy upper r v) = opcCopy := by
    simp [tagOf, encodeCopy, flagField, bits_field_same, bits_field_apart]
  rw [decode_of_tagOf_eq_opcCopy htag]
  simp [regAt, encodeCopy, flagField, hbit, bit_field_apart, bits_field_same, bits_field_apart]

/-- The round trip from an instruction (30_encoding.md R99, R100). -/
theorem decode_encode {i : Instr} (h : i.wf = true) : decode (encode i) = i := by
  have ht := tagOf_of_selects (selects_encode h)
  obtain ⟨h9, h10, h11, h12, h13, h14, h15⟩ := decode_of_unknown_tag (encode i)
  cases i with
  | vlenset v =>
    rw [decode_of_tagOf_eq_opcVlenset ht]
    simp [encode, bits_field_same, bits_field_apart]
  | maskset r =>
    rw [decode_of_tagOf_eq_opcMaskset ht]
    simp [encode, bits_field_same, bits_field_apart]
  | memoryLoad r p c => exact decode_encodeMemory false r p c
  | memoryStore r p c => exact decode_encodeMemory true r p c
  | copyLower r v => exact decode_encodeCopy false r v
  | copyUpper r v => exact decode_encodeCopy true r v
  | jz r o =>
    rw [decode_of_tagOf_eq_opcJz ht]
    simp [encode, regAt, bits_field_same, bits_field_apart]
  | bz r b o =>
    have hbit : bit 11 (field 11 (BitVec.ofBool b)) = b := bit_flagField_same 11 b (by decide)
    rw [decode_of_tagOf_eq_opcBz ht]
    simp [encode, regAt, flagField, hbit, bit_field_apart, bits_field_same, bits_field_apart]
  | ret => exact decode_of_tagOf_eq_opcRet ht
  | inter n =>
    rw [decode_of_tagOf_eq_opcInter ht]
    simp [encode, bits_field_same, bits_field_apart]
  | arithAdd o => exact decode_encodeArith aluAdd false o
  | arithSub o => exact decode_encodeArith aluSub false o
  | arithMul o => exact decode_encodeArith aluMul false o
  | arithDiv o => exact decode_encodeArith aluDiv false o
  | arithAnd o => exact decode_encodeArith aluAnd false o
  | arithXor o => exact decode_encodeArith aluXor false o
  | illegalArithHorizontalOp0 o => exact decode_encodeArith aluAdd true o
  | illegalArithHorizontalOp1 o => exact decode_encodeArith aluSub true o
  | illegalArithHorizontalOp2 o => exact decode_encodeArith aluMul true o
  | illegalArithHorizontalOp3 o => exact decode_encodeArith aluDiv true o
  | illegalArithHorizontalOp4 o => exact decode_encodeArith aluAnd true o
  | illegalArithHorizontalOp5 o => exact decode_encodeArith aluXor true o
  | illegalArithOp6 u => exact decode_encodeArith 6 u.horizontal u.operands
  | illegalArithOp7 u => exact decode_encodeArith 7 u.horizontal u.operands
  | illegalTag9 w => exact h9 ht
  | illegalTag10 w => exact h10 ht
  | illegalTag11 w => exact h11 ht
  | illegalTag12 w => exact h12 ht
  | illegalTag13 w => exact h13 ht
  | illegalTag14 w => exact h14 ht
  | illegalTag15 w => exact h15 ht

/-- The tag of a word, put back where it was read. -/
theorem field_of_tagOf {w : Word} {t : BitVec 4} (h : tagOf w = t) :
    field 0 t = w &&& field 0 (BitVec.allOnes 4) := by
  rw [← h, tagOf, field_bits]

/-- An `arith` word's parts, put back where they were read: every bit but the ignored ones. -/
theorem encodeArith_of_word {w : Word} (h : tagOf w = opcArith) :
    encodeArith (opOf w) (horizontalOf w) (arithOperandsOf w) = w &&& ~~~0xF0000000 := by
  simp only [encodeArith, arithOperandsOf, opOf, horizontalOf, regAt, regBits_regOfBits, field_of_tagOf h, field_bits,
    flagField_bit, and_or_and]
  exact congrArg (w &&& ·) (by decide)

/-- A `memory` word's parts, put back where they were read: every bit but the ignored ones. -/
theorem encodeMemory_of_word {w : Word} (h : tagOf w = opcMemory) :
    encodeMemory (bit 17 w) (regAt 4 w) (regAt 8 w) (bits 18 2 w) = w &&& ~~~0xFFF1F000 := by
  simp only [encodeMemory, regAt, regBits_regOfBits, field_of_tagOf h, field_bits, flagField_bit, and_or_and]
  exact congrArg (w &&& ·) (by decide)

/-- A `copy` word's parts, put back where they were read: every bit but the ignored ones. -/
theorem encodeCopy_of_word {w : Word} (h : tagOf w = opcCopy) :
    encodeCopy (bit 11 w) (regAt 4 w) (bits 12 16 w) = w &&& ~~~0xF0000700 := by
  simp only [encodeCopy, regAt, regBits_regOfBits, field_of_tagOf h, field_bits, flagField_bit, and_or_and]
  exact congrArg (w &&& ·) (by decide)

/-- A word of a tag that names no instruction is a word of the row with that tag as its pattern. -/
theorem and_mask_of_tagOf {w : Word} {t : BitVec 4} (h : tagOf w = t) : w &&& 0x0000000F = field 0 t := by
  rw [field_of_tagOf h]
  exact congrArg (w &&& ·) (by decide)

/-- The round trip from a word (30_encoding.md R97, R99, R100): its canonical word has each field where it was read, so
it is the word under the mask of its fields. -/
theorem encode_decode (w : Word) : (decode w).wf = true
    ∧ encode (decode w) = if (decode w).keptWord.isSome then w else w &&& ~~~(decode w).row.ignored := by
  obtain ⟨h9, h10, h11, h12, h13, h14, h15⟩ := decode_of_unknown_tag w
  rcases tag_cases (tagOf w) with
    ht | ht | ht | ht | ht | ht | ht | ht | ht | ht | ht | ht | ht | ht | ht | ht
  · rw [decode_of_tagOf_eq_opcVlenset ht]
    refine ⟨rfl, (?_ : _ = w &&& ~~~0xFFFFF000)⟩
    simp only [encode, field_of_tagOf ht, field_bits, and_or_and]
    exact congrArg (w &&& ·) (by decide)
  · rw [decode_of_tagOf_eq_opcMaskset ht]
    refine ⟨rfl, (?_ : _ = w &&& ~~~0xFFFFFF00)⟩
    simp only [encode, regBits_regOfBits, field_of_tagOf ht, field_bits, and_or_and]
    exact congrArg (w &&& ·) (by decide)
  · rw [decode_of_tagOf_eq_opcMemory ht]
    have hword := encodeMemory_of_word ht
    generalize bit 17 w = b at hword ⊢
    cases b with
    | false => exact ⟨rfl, hword⟩
    | true => exact ⟨rfl, hword⟩
  · rw [decode_of_tagOf_eq_opcCopy ht]
    have hword := encodeCopy_of_word ht
    generalize bit 11 w = b at hword ⊢
    cases b with
    | false => exact ⟨rfl, hword⟩
    | true => exact ⟨rfl, hword⟩
  · obtain ⟨henc, hign, hkept⟩ := arithForm_spec (opOf w) (horizontalOf w) (arithOperandsOf w)
    rw [decode_of_tagOf_eq_opcArith ht, decodeArith_eq, henc, hign, hkept, encodeArith_of_word ht]
    exact ⟨wf_of_keptWord_eq_none hkept, rfl⟩
  · rw [decode_of_tagOf_eq_opcJz ht]
    refine ⟨rfl, (?_ : _ = w &&& ~~~0xF0000F00)⟩
    simp only [encode, regAt, regBits_regOfBits, field_of_tagOf ht, field_bits, and_or_and]
    exact congrArg (w &&& ·) (by decide)
  · rw [decode_of_tagOf_eq_opcBz ht]
    refine ⟨rfl, (?_ : _ = w &&& ~~~0xF0000700)⟩
    simp only [encode, regAt, regBits_regOfBits, flagField_bit, field_of_tagOf ht, field_bits, and_or_and]
    exact congrArg (w &&& ·) (by decide)
  · rw [decode_of_tagOf_eq_opcRet ht]
    refine ⟨rfl, (?_ : _ = w &&& ~~~0xFFFFFFF0)⟩
    simp only [encode, field_of_tagOf ht]
    exact congrArg (w &&& ·) (by decide)
  · rw [decode_of_tagOf_eq_opcInter ht]
    refine ⟨rfl, (?_ : _ = w &&& ~~~0xFFF00000)⟩
    simp only [encode, field_of_tagOf ht, field_bits, and_or_and]
    exact congrArg (w &&& ·) (by decide)
  · rw [h9 ht]
    exact ⟨(selects_iff _ w).2 (and_mask_of_tagOf ht), rfl⟩
  · rw [h10 ht]
    exact ⟨(selects_iff _ w).2 (and_mask_of_tagOf ht), rfl⟩
  · rw [h11 ht]
    exact ⟨(selects_iff _ w).2 (and_mask_of_tagOf ht), rfl⟩
  · rw [h12 ht]
    exact ⟨(selects_iff _ w).2 (and_mask_of_tagOf ht), rfl⟩
  · rw [h13 ht]
    exact ⟨(selects_iff _ w).2 (and_mask_of_tagOf ht), rfl⟩
  · rw [h14 ht]
    exact ⟨(selects_iff _ w).2 (and_mask_of_tagOf ht), rfl⟩
  · rw [h15 ht]
    exact ⟨(selects_iff _ w).2 (and_mask_of_tagOf ht), rfl⟩

/-- A word selects the row of the instruction it decodes to. -/
theorem decode_row_selects (w : Word) : (decode w).row.selects w = true := by
  obtain ⟨hwf, henc⟩ := encode_decode w
  have hsel := selects_encode hwf
  rw [henc] at hsel
  split at hsel
  · exact hsel
  · rwa [selects_and_not_ignored] at hsel

/-! ### Byte lists -/

/-- The byte decoder reads the four little-endian bytes of a word and leaves the rest (30_encoding.md R82). -/
theorem decodeBytes_leBytes (w : Word) (rest : List Byte) :
    decodeBytes (leBytes 4 w ++ rest) = .ok (decode w, rest) := by
  have hword : leWord [_, _, _, _] = w := leWord_leBytes w
  simp only [leBytes, List.cons_append, List.nil_append, decodeBytes, hword]

/-- Fewer than four bytes hold no instruction word. -/
theorem decodeBytes_of_short {bs : List Byte} (h : bs.length < 4) : decodeBytes bs = .error .truncated := by
  match bs, h with
  | [], _ => rfl
  | [_], _ => rfl
  | [_, _], _ => rfl
  | [_, _, _], _ => rfl

/-! ### The obligations -/

/-- Settles O2: by `decode_encode`, format by format, and the byte decoder's reading of a word's bytes. -/
theorem decodeOfEncodeIsTheInstruction : Obligations.DecodeOfEncodeIsTheInstruction := by
  intro i hwf
  have hword := decode_encode hwf
  refine ⟨hword, fun rest => ?_⟩
  rw [encodeBytes, decodeBytes_leBytes, hword]

/-- Settles O3: by `encode_decode`, tag by tag. -/
theorem encodeOfDecodeIsTheCanonicalWord : Obligations.EncodeOfDecodeIsTheCanonicalWord :=
  encode_decode

/-- Settles O4: the word selects its decoding's row because its canonical word does, and no two rows of the table
select one word. -/
theorem everyWordSelectsOneRow : Obligations.EveryWordSelectsOneRow :=
  fun w => ⟨decode_row_selects w, fun _ hi => row_eq_of_selects hi (decode_row_selects w)⟩

/-- Settles O5: the two words select one row, so they have one canonical word, and an instruction is the decoding of
its canonical word. -/
theorem ignoredBitsDoNotMatter : Obligations.IgnoredBitsDoNotMatter := by
  intro v w hkept hagree
  have hsel : (decode v).row.selects w = true := by
    rw [← selects_and_not_ignored, ← hagree, selects_and_not_ignored]
    exact decode_row_selects v
  have hrow : (decode w).row = (decode v).row := row_eq_of_selects (decode_row_selects w) hsel
  have hkept' : (decode w).keptWord.isSome = (decode v).keptWord.isSome := by
    rw [keptWord_isSome, keptWord_isSome, hrow]
  obtain ⟨hwv, hv⟩ := encode_decode v
  obtain ⟨hww, hw⟩ := encode_decode w
  have henc : encode (decode w) = encode (decode v) := by
    rw [hw, hv, hkept', hkept, hrow, Option.isSome_none, if_neg Bool.false_ne_true, if_neg Bool.false_ne_true, hagree]
  rw [← decode_encode hww, henc, decode_encode hwv]

/-- Settles O1: each word is decoded by evaluation. -/
theorem writtenOutWordsDecode : Obligations.WrittenOutWordsDecode := by
  unfold Obligations.WrittenOutWordsDecode
  decide

/-- Settles O6: a short list, the four bytes of a word, and the four bytes a table word is stored as. -/
theorem byteDecoderIsTotal : Obligations.ByteDecoderIsTotal := by
  refine ⟨fun _ => decodeBytes_of_short, decodeBytes_leBytes, fun w hw => ?_⟩
  have hbytes := decodeBytes_leBytes (BitVec.ofNat 32 w) []
  rw [List.append_nil] at hbytes
  simp only [decodeTableWord, Nat.mod_eq_of_lt hw, hbytes]

end Sys2Proof.Machine
end

section
/-! PROOFS. The obligations of 20_memory.md and 42_memory_copy.md: the two primitives (R54, R55, R57), load, store and
`copy`. Each vectorized instruction has one closed form per outcome: every active lane in bounds, or a lowest active
lane that is not. -/

namespace Sys2Proof.Machine

/-! ### Frames -/

/-- The frame of an operation that changes registers only. -/
theorem OnlyRegs.sameOutsideRegs {s t : State} (h : OnlyRegs s t) : SameOutsideRegs s t := by
  rw [h]
  simp [SameOutsideRegs, SameMask, SameMem]

/-- The frame of an operation that changes memory only. -/
theorem OnlyMem.sameOutsideMem {s t : State} (h : OnlyMem s t) (hl : t.mem.len = s.mem.len) :
    SameOutsideMem s t := by
  rw [h] at hl ⊢
  exact ⟨fun _ _ => rfl, fun _ => rfl, rfl, rfl, rfl, rfl, hl⟩

/-! ### The primitives -/

/-- Byte `k` of the word read from `n` bytes of memory (20_memory.md R54). -/
theorem bits_leWord_bytes (m : Memory) (a n : Nat) {k : Nat} (hk : k < 4) :
    bits (8 * k) 8 (leWord (m.bytes a n)) = if k < n then m.byte (a + k) else 0 := by
  rw [bits_leWord _ k hk, Memory.getElem?_bytes]
  split
  · rfl
  · rfl

/-- Settles O17: in and out of bounds are the read's own cases. -/
theorem memoryReadIsLittleEndian : Obligations.MemoryReadIsLittleEndian :=
  fun m addr n _ _ => ⟨(Memory.read_eq_none_iff m addr n).2,
    fun hb => ⟨_, Memory.read_of_inBounds hb, fun _ hk => bits_leWord_bytes m _ n hk⟩⟩

/-- Settles O18: in and out of bounds are the write's own cases, and `write_spec` says of every byte what it becomes. -/
theorem memoryWriteChangesExactlyItsBytes : Obligations.MemoryWriteChangesExactlyItsBytes := by
  refine fun m addr v n hw _ _ => ⟨(Memory.write_eq_none_iff m addr n v).2, fun hb => ?_⟩
  have hwrite := Memory.write_of_inBounds hb v
  obtain ⟨-, hwf, hlen, hbyte⟩ := Memory.write_spec hw hwrite
  refine ⟨_, hwrite, hwf, hlen, fun k hk => ?_, fun a ha => ?_⟩
  · rw [hbyte, if_pos ⟨by omega, by omega⟩, Nat.add_sub_cancel_left]
  · rw [hbyte, if_neg (by omega)]

/-- An address a few bytes above one whose four bytes are inside memory does not wrap. -/
theorem toNat_add_ofNat {addr : Word} {k : Nat} (h : addr.toNat + k < 2 ^ 32) :
    (addr + BitVec.ofNat 32 k).toNat = addr.toNat + k := by
  rw [BitVec.toNat_add, BitVec.toNat_ofNat, Nat.mod_eq_of_lt (show k < 2 ^ 32 by omega), Nat.mod_eq_of_lt h]

/-- Settles O19: the bytes read are among the four that `write_spec` says were written. -/
theorem mixedWidthAccessSeesTheBytes : Obligations.MixedWidthAccessSeesTheBytes := by
  intro m m' addr v k n hw hwrite hn hkn
  obtain ⟨hb, -, hlen, hbyte⟩ := Memory.write_spec hw hwrite
  obtain ⟨hmax, -⟩ := (Memory.wf_iff m).1 hw
  simp only [Config.maxMemLen] at hmax
  have haddr : (addr + BitVec.ofNat 32 k).toNat = addr.toNat + k := toNat_add_ofNat (by omega)
  refine ⟨_, Memory.read_of_inBounds (by omega), fun j hj => ?_⟩
  rw [bits_leWord_bytes _ _ _ hj, haddr, hbyte, Nat.add_assoc, Nat.add_sub_cancel_left]
  by_cases hjn : j < n
  · rw [if_pos hjn, if_pos hjn, if_pos ⟨by omega, by omega⟩]
  · rw [if_neg hjn, if_neg hjn]

/-! ### Loads -/

/-- Either every active lane's access is in bounds, or there is a lowest active lane whose access is not. -/
theorem inBounds_or_lowest_out (ptr : Reg) (n : Nat) (s : State) :
    ActiveLanesInBounds ptr n s
      ∨ ∃ k, s.laneActive k = true ∧ s.mem.len < (s.readReg ptr k).toNat + n
          ∧ ∀ i, i < k → s.laneActive i = true → (s.readReg ptr i).toNat + n ≤ s.mem.len := by
  by_cases h : ActiveLanesInBounds ptr n s
  · exact .inl h
  · simp only [ActiveLanesInBounds, not_forall, not_le] at h
    have hex : ∃ k, s.laneActive k = true ∧ s.mem.len < (s.readReg ptr k).toNat + n := by
      obtain ⟨k, hk, hlt⟩ := h
      exact ⟨k, hk, hlt⟩
    classical
    obtain ⟨hk, hlt⟩ := Nat.find_spec hex
    refine .inr ⟨Nat.find hex, hk, hlt, fun i hi ha => ?_⟩
    by_contra hgt
    exact Nat.find_min hex hi ⟨ha, by omega⟩

/-- An active lane exists. -/
theorem State.lt_lanes_of_laneActive (s : State) {i : Nat} (h : s.laneActive i = true) : i < Config.lanes :=
  s.enabled_lt_lanes ((s.laneActive_iff i).1 h).1

/-- A load whose active lanes are all in bounds, register lane by register lane (42_memory_copy.md R150). -/
theorem load_inBounds {reg ptr : Reg} {n : Nat} {s : State} (h : ActiveLanesInBounds ptr n s) :
    OnlyRegs s (forActiveLanes (loadLane reg ptr n) s)
      ∧ ∀ r j, (forActiveLanes (loadLane reg ptr n) s).readReg r j
          = if s.laneActive j = true ∧ r = reg ∧ reg.backed = true
            then leWord (s.mem.bytes (s.readReg ptr j).toNat n) else s.readReg r j := by
  obtain ⟨hregs, hread⟩ := forActiveLanes_laneLocal (body := loadLane reg ptr n)
    fun i hi => loadLane_laneLocal (s.lt_lanes_of_laneActive hi) (h i hi)
  refine ⟨hregs, fun r j => ?_⟩
  rw [hread, ← ite_and]

/-- A load whose lowest active lane out of bounds is `k`: the lanes below it are loaded and its fault is raised
(40_execution_cycle.md R131). -/
theorem load_outOfBounds {reg ptr : Reg} {n k : Nat} {s : State} (hk : s.laneActive k = true)
    (hlt : s.mem.len < (s.readReg ptr k).toNat + n)
    (hbelow : ∀ i, i < k → s.laneActive i = true → (s.readReg ptr i).toNat + n ≤ s.mem.len) :
    ∃ t, forActiveLanes (loadLane reg ptr n) s = raise (.memoryOutOfBounds (s.readReg ptr k) n k) t ∧ OnlyRegs s t
      ∧ ∀ r j, t.readReg r j
          = if (j < k ∧ s.laneActive j = true) ∧ r = reg ∧ reg.backed = true
            then leWord (s.mem.bytes (s.readReg ptr j).toNat n) else s.readReg r j := by
  obtain ⟨t, ht, hregs, hread⟩ := forActiveLanes_laneLocal_fault (body := loadLane reg ptr n) hk
    (fun i hi ha => loadLane_laneLocal (s.lt_lanes_of_laneActive ha) (hbelow i hi ha))
    (fun u hu hlane => loadLane_fault hu hlane hlt)
  refine ⟨t, ht, hregs, fun r j => ?_⟩
  rw [hread, ← ite_and]

/-- Settles O22: the closed form of a load in bounds. -/
theorem loadGathersEveryActiveLane : Obligations.LoadGathersEveryActiveLane := by
  intro reg ptr bytesCount s hb
  obtain ⟨hregs, hread⟩ := load_inBounds (reg := reg) hb
  refine ⟨_, rfl, hregs.sameOutsideRegs, fun r i hne => ?_, fun i hbacked hi k hk => ?_⟩
  · refine (hread r i).trans (if_neg ?_)
    rintro ⟨ha, hr, hbk⟩
    simp [ha, hr, hbk] at hne
  · rw [← bits_leWord_bytes _ _ _ hk]
    exact congrArg (bits (8 * k) 8) ((hread reg i).trans (if_pos ⟨hi, rfl, hbacked⟩))

/-- Settles O23: the closed form of a load out of bounds. -/
theorem loadStopsAtTheLowestFaultingLane : Obligations.LoadStopsAtTheLowestFaultingLane := by
  intro reg ptr bytesCount s k hk hlt hbelow
  obtain ⟨t, ht, hregs, hread⟩ := load_outOfBounds (reg := reg) hk hlt hbelow
  obtain ⟨hmask, hvlen, hip, hsp, -, hmem⟩ := hregs.sameOutsideRegs
  refine ⟨_, congrArg Host.Outcome.next ht, rfl, hmask, hvlen, hip, hsp, hmem, fun r i hne => ?_,
    fun i hik hbacked hi j hj => ?_⟩
  · refine (hread r i).trans (if_neg ?_)
    rintro ⟨⟨hlt, ha⟩, hr, hbk⟩
    simp [ha, hr, hbk, Nat.not_le.2 hlt] at hne
  · rw [← bits_leWord_bytes _ _ _ hj]
    exact congrArg (bits (8 * j) 8) ((hread reg i).trans (if_pos ⟨⟨hik, hi⟩, rfl, hbacked⟩))

/-! ### Stores -/

/-- The store of the active lanes below `k`, all of them in bounds, byte by byte (42_memory_copy.md R151;
20_memory.md R64). -/
theorem store_below {reg ptr : Reg} {n k : Nat} {s : State} (hw : s.mem.wf = true) (hkv : k ≤ s.vlen.toNat + 1)
    (hbelow : ∀ i, i < k → s.laneActive i = true → (s.readReg ptr i).toNat + n ≤ s.mem.len) :
    ∃ t, runsTo (storeLane reg ptr n) (List.range k) s t ∧ OnlyMem s t ∧ t.mem.wf = true ∧ t.mem.len = s.mem.len
      ∧ (∀ a i, i < k → s.laneActive i = true → LaneReaches ptr n s i a →
          (∀ j, i < j → j < k → s.laneActive j = true → ¬ LaneReaches ptr n s j a) →
          t.mem.byte a = bits (8 * (a - (s.readReg ptr i).toNat)) 8 (s.readReg reg i))
      ∧ ∀ a, (∀ i, i < k → s.laneActive i = true → ¬ LaneReaches ptr n s i a) → t.mem.byte a = s.mem.byte a := by
  have hactive : ∀ i ∈ List.range k, s.readMask i = true → s.laneActive i = true := fun i hi hm =>
    (s.laneActive_iff i).2 ⟨by have := List.mem_range.1 hi; omega, hm⟩
  obtain ⟨t, ht, hmem, hwf, hlen, hcov, hfree⟩ :=
    runsTo_store (reg := reg) (ptr := ptr) (n := n) (s := s) (l := List.range k) (List.pairwise_lt_range)
      (fun i hi hm => hbelow i (List.mem_range.1 hi) (hactive i hi hm)) (OnlyMem.rfl' s) hw rfl
  refine ⟨t, ht, hmem, hwf, hlen, fun a i hi ha hreach hlast => ?_, fun a hfree' => ?_⟩
  · exact hcov a i (List.mem_range.2 hi) ((s.laneActive_iff i).1 ha).2 hreach fun j hj hij hm =>
      hlast j hij (List.mem_range.1 hj) (hactive j hj hm)
  · exact hfree a fun i hi hm => hfree' i (List.mem_range.1 hi) (hactive i hi hm)

/-- A store whose active lanes are all in bounds: the store of the enabled lanes. -/
theorem store_inBounds {reg ptr : Reg} {n : Nat} {s : State} (hw : s.mem.wf = true)
    (h : ActiveLanesInBounds ptr n s) :
    OnlyMem s (forActiveLanes (storeLane reg ptr n) s) ∧ (forActiveLanes (storeLane reg ptr n) s).mem.len = s.mem.len
      ∧ (∀ a i, s.laneActive i = true → LaneReaches ptr n s i a →
          (∀ j, i < j → s.laneActive j = true → ¬ LaneReaches ptr n s j a) →
          (forActiveLanes (storeLane reg ptr n) s).mem.byte a
            = bits (8 * (a - (s.readReg ptr i).toNat)) 8 (s.readReg reg i))
      ∧ ∀ a, (∀ i, s.laneActive i = true → ¬ LaneReaches ptr n s i a) →
          (forActiveLanes (storeLane reg ptr n) s).mem.byte a = s.mem.byte a := by
  obtain ⟨t, ht, hmem, -, hlen, hcov, hfree⟩ :=
    store_below (reg := reg) hw (Nat.le_refl (s.vlen.toNat + 1)) fun i _ => h i
  have hrun : forActiveLanes (storeLane reg ptr n) s = t := runLanes_of_runsTo ht
  have hlt {i : Nat} (ha : s.laneActive i = true) : i < s.vlen.toNat + 1 :=
    Nat.lt_succ_of_le ((s.laneActive_iff i).1 ha).1
  rw [hrun]
  exact ⟨hmem, hlen, fun a i ha hreach hlast => hcov a i (hlt ha) ha hreach fun j hij _ => hlast j hij,
    fun a h => hfree a fun i _ => h i⟩

/-- Settles O24: the closed form of a store in bounds. -/
theorem storeScattersEveryActiveLane : Obligations.StoreScattersEveryActiveLane := by
  intro reg ptr bytesCount s hw hb
  obtain ⟨hmem, hlen, hbytes⟩ := store_inBounds (reg := reg) hw hb
  exact ⟨_, rfl, hmem.sameOutsideMem hlen, hbytes⟩

/-- A store whose lowest active lane out of bounds is `k`: the lanes below it store as they would alone, and lane `k`,
whose address register the stores did not change, faults (40_execution_cycle.md R131). -/
theorem store_outOfBounds {reg ptr : Reg} {n k : Nat} {s : State} (hw : s.mem.wf = true)
    (hk : s.laneActive k = true) (hlt : s.mem.len < (s.readReg ptr k).toNat + n)
    (hbelow : ∀ i, i < k → s.laneActive i = true → (s.readReg ptr i).toNat + n ≤ s.mem.len) :
    ∃ t, forActiveLanes (storeLane reg ptr n) s = raise (.memoryOutOfBounds (s.readReg ptr k) n k) t
      ∧ SameOutsideMem s t
      ∧ (∀ a i, i < k → s.laneActive i = true → LaneReaches ptr n s i a →
          (∀ j, i < j → j < k → s.laneActive j = true → ¬ LaneReaches ptr n s j a) →
          t.mem.byte a = bits (8 * (a - (s.readReg ptr i).toNat)) 8 (s.readReg reg i))
      ∧ ∀ a, (∀ i, i < k → s.laneActive i = true → ¬ LaneReaches ptr n s i a) → t.mem.byte a = s.mem.byte a := by
  obtain ⟨hkv, hkm⟩ := (s.laneActive_iff k).1 hk
  obtain ⟨rest, hsplit⟩ := s.enabledLanes_split hkv
  obtain ⟨t, ht, hmem, -, hlen, hbytes⟩ := store_below (reg := reg) hw (Nat.le_succ_of_le hkv) hbelow
  refine ⟨t, ?_, hmem.sameOutsideMem hlen, hbytes⟩
  rw [forActiveLanes, hsplit, runLanes_append_of_runsTo _ ht]
  simp only [runLanes, hmem.readMask, hkm, ↓reduceIte, storeLane_fault hmem hlen hlt]

/-- Settles O25: the closed form of a store out of bounds. -/
theorem storeStopsAtTheLowestFaultingLane : Obligations.StoreStopsAtTheLowestFaultingLane := by
  intro reg ptr bytesCount s k hw hk hlt hbelow
  obtain ⟨t, ht, ⟨hregs, hmask, hvlen, hip, hsp, -, hlen⟩, hbytes⟩ := store_outOfBounds (reg := reg) hw hk hlt hbelow
  exact ⟨_, congrArg Host.Outcome.next ht, rfl, hregs, hmask, hvlen, hip, hsp, hlen, hbytes⟩

/-- A byte that lane `i` of a store put down, where no later lane reaches it. -/
theorem store_byte_of_last {reg ptr : Reg} {n : Nat} {s : State} {i k : Nat} (hw : s.mem.wf = true)
    (hb : ActiveLanesInBounds ptr n s) (hi : s.laneActive i = true) (hk : k < n)
    (hlast : ∀ a j, i < j → s.laneActive j = true → LaneReaches ptr n s i a → ¬ LaneReaches ptr n s j a) :
    (forActiveLanes (storeLane reg ptr n) s).mem.byte ((s.readReg ptr i).toNat + k)
      = bits (8 * k) 8 (s.readReg reg i) := by
  obtain ⟨-, -, hcov, -⟩ := store_inBounds (reg := reg) hw hb
  have hreach : LaneReaches ptr n s i ((s.readReg ptr i).toNat + k) := ⟨by omega, by omega⟩
  rw [hcov _ i hi hreach fun j hij ha => hlast _ j hij ha hreach, Nat.add_sub_cancel_left]

/-- Settles O26: the load reads the bytes the store put down, through the address register the store left alone. -/
theorem storeThenLoadReturnsTheValue : Obligations.StoreThenLoadReturnsTheValue := by
  intro reg ptr back bytesCount s i hw hb hback hi hlast
  obtain ⟨hmem, hlen, -⟩ := store_inBounds (reg := reg) hw hb
  have hbyte {k : Nat} (hk : k < bytesCount.toNat + 1) := store_byte_of_last (reg := reg) hw hb hi hk hlast
  set t := forActiveLanes (storeLane reg ptr (bytesCount.toNat + 1)) s
  have hbt : ActiveLanesInBounds ptr (bytesCount.toNat + 1) t := fun j hj => by
    rw [hmem.readReg, hlen]
    exact hb j (hmem.laneActive j ▸ hj)
  obtain ⟨-, hread⟩ := load_inBounds (reg := back) hbt
  have hvalue : ∀ k, k < 4 →
      bits (8 * k) 8 ((forActiveLanes (loadLane back ptr (bytesCount.toNat + 1)) t).readReg back i)
        = if k < bytesCount.toNat + 1 then bits (8 * k) 8 (s.readReg reg i) else 0 := fun k hk => by
    rw [hread, if_pos ⟨(hmem.laneActive i).trans hi, rfl, hback⟩, bits_leWord_bytes _ _ _ hk, hmem.readReg]
    exact ite_congr rfl hbyte fun _ => rfl
  refine ⟨t, _, rfl, rfl, hvalue, fun h3 => word_ext_bits fun k hk => ?_⟩
  subst h3
  exact (hvalue k hk).trans (if_pos hk)

/-- Settles O27: the fetch reads the four bytes the store put down at `ip`. -/
theorem nextFetchSeesTheStore : Obligations.NextFetchSeesTheStore := by
  intro reg ptr s i hw hb hi hptr hlast
  obtain ⟨hmem, hlen, -⟩ := store_inBounds (reg := reg) hw hb
  have hbyte {k : Nat} (hk : k < 4) := store_byte_of_last (reg := reg) hw hb hi hk hlast
  obtain ⟨-, -, -, hip, -, -⟩ := hmem.fields
  have hin := hb i hi
  rw [hptr, ← hip] at hbyte hin
  exact ⟨_, rfl, fetch_of_bytes (hlen ▸ hin) fun k hk => (hbyte hk).symm⟩

/-! ### `copy` -/

/-- `copy`, register lane by register lane (42_memory_copy.md R154). -/
theorem copy_spec (half : Word → BitVec 16 → Word) (dst : Reg) (value : BitVec 16) (s : State) :
    OnlyRegs s (forActiveLanes (copyLane half dst value) s)
      ∧ ∀ r j, (forActiveLanes (copyLane half dst value) s).readReg r j
          = if s.laneActive j = true ∧ r = dst ∧ dst.backed = true then half (s.readReg dst j) value
            else s.readReg r j := by
  obtain ⟨hregs, hread⟩ := forActiveLanes_laneLocal (body := copyLane half dst value)
    fun i hi => copyLane_laneLocal half dst value s (s.lt_lanes_of_laneActive hi)
  refine ⟨hregs, fun r j => ?_⟩
  rw [hread, ← ite_and]

/-- A half-word immediate, as the field it fills. -/
theorem setWidth_eq_field (value : BitVec 16) : value.setWidth 32 = field 0 value := by
  simp [field]

/-- The lower half is the immediate, the upper half the old one (42_memory_copy.md R155). -/
theorem halves_withLowerHalf (old : Word) (value : BitVec 16) :
    bits 0 16 (withLowerHalf old value) = value ∧ bits 16 16 (withLowerHalf old value) = bits 16 16 old := by
  rw [withLowerHalf, setWidth_eq_field]
  constructor
  · rw [bits_or, bits_and, bits_field_same 0 value (by decide), show bits 0 16 0xFFFF0000 = 0 by decide]
    simp
  · rw [bits_or, bits_and, bits_field_apart 16 0 16 value (by decide),
      show bits 16 16 0xFFFF0000 = BitVec.allOnes 16 by decide, BitVec.and_allOnes]
    simp

/-- The upper half is the immediate, the lower half the old one (42_memory_copy.md R156). -/
theorem halves_withUpperHalf (old : Word) (value : BitVec 16) :
    bits 16 16 (withUpperHalf old value) = value ∧ bits 0 16 (withUpperHalf old value) = bits 0 16 old := by
  rw [withUpperHalf, ← field]
  constructor
  · rw [bits_or, bits_and, bits_field_same 16 value (by decide), show bits 16 16 0x0000FFFF = 0 by decide]
    simp
  · rw [bits_or, bits_and, bits_field_apart 0 16 16 value (by decide),
      show bits 0 16 0x0000FFFF = BitVec.allOnes 16 by decide, BitVec.and_allOnes]
    simp

/-- Settles O28: the closed form of `copy`, with what each half becomes. -/
theorem copyReplacesOneHalf : Obligations.CopyReplacesOneHalf := by
  intro dst value s
  have hframe (half : Word → BitVec 16 → Word) (r : Reg) (i : Nat)
      (hne : r ≠ dst ∨ dst.backed = false ∨ s.laneActive i = false) :
      (forActiveLanes (copyLane half dst value) s).readReg r i = s.readReg r i := by
    refine ((copy_spec half dst value s).2 r i).trans (if_neg ?_)
    rintro ⟨ha, hr, hbk⟩
    simp [ha, hr, hbk] at hne
  have hlane (half : Word → BitVec 16 → Word) {i : Nat} (hbacked : dst.backed = true) (hi : s.laneActive i = true) :
      (forActiveLanes (copyLane half dst value) s).readReg dst i = half (s.readReg dst i) value :=
    ((copy_spec half dst value s).2 dst i).trans (if_pos ⟨hi, rfl, hbacked⟩)
  refine ⟨⟨_, rfl, (copy_spec _ dst value s).1.sameOutsideRegs, hframe _, fun i hbacked hi => ?_⟩,
    ⟨_, rfl, (copy_spec _ dst value s).1.sameOutsideRegs, hframe _, fun i hbacked hi => ?_⟩⟩
  · rw [hlane _ hbacked hi]
    exact halves_withLowerHalf _ value
  · rw [hlane _ hbacked hi]
    exact halves_withUpperHalf _ value

end Sys2Proof.Machine
end

section
/-! PROOFS. The obligations of 43_arith.md. An `arith` instruction has one closed form (R171): its lane result in every
active lane. The operations without a remainder then differ only in the value they give. -/

namespace Sys2Proof.Machine

/-! ### Complement flags -/

/-- The complement of a Word, as a number (00_scope.md R7). -/
theorem toNat_not (v : Word) : (~~~v).toNat = 0xFFFFFFFF - v.toNat := by
  rw [BitVec.toNat_not]

/-- Settles O29: the complement as a number, and of the two constants. -/
theorem complementFlagsActOnTheValueRead : Obligations.ComplementFlagsActOnTheValueRead :=
  ⟨fun v => ⟨rfl, toNat_not v⟩, fun _ _ _ => ⟨rfl, toNat_not _⟩,
    fun _ _ => ⟨(by decide : ~~~(0 : Word) = 0xFFFFFFFF), (by decide : ~~~(0xFFFFFFFF : Word) = 0)⟩⟩

/-! ### The closed form -/

/-- `arith`, register lane by register lane (43_arith.md R171). -/
theorem arith_spec (alu : Word → Word → AluResult) (o : ArithOperands) (s : State) :
    OnlyRegs s (forActiveLanes (arithLane alu o) s)
      ∧ ∀ r j, (forActiveLanes (arithLane alu o) s).readReg r j
          = if s.laneActive j = true
            then arithLaneResult o (alu (operand o.lhs o.negateLhs j s) (operand o.rhs o.negateRhs j s))
              (s.readReg · j) r
            else s.readReg r j :=
  forActiveLanes_laneLocal fun _ hi => arithLane_laneLocal alu o s (s.lt_lanes_of_laneActive hi)

/-- An operation without a remainder writes `dst` only. The instruction's flags may differ from those of the
statement, if the values they make agree. -/
theorem writesDstOnly_of_alu {i : Instr} {alu : Word → Word → AluResult} {p o : ArithOperands}
    {f : Word → Word → Word} (hexec : ∀ s, exec i s = .next (forActiveLanes (arithLane alu p) s))
    (hrem : ∀ a b, (alu a b).remainder = none) (hdst : p.dst = o.dst)
    (hvalue : ∀ s j, complementIf p.negateDst
        (alu (operand p.lhs p.negateLhs j s) (operand p.rhs p.negateRhs j s)).primary
      = complementIf o.negateDst (f (operand o.lhs o.negateLhs j s) (operand o.rhs o.negateRhs j s))) :
    WritesDstOnly i o f := by
  intro s
  obtain ⟨hregs, hread⟩ := arith_spec alu p s
  refine ⟨_, hexec s, hregs.sameOutsideRegs, fun r j => ?_⟩
  rw [hread]
  simp only [arithLaneResult, hrem, hvalue, hdst, ← ite_and]
  exact if_congr (by tauto) rfl rfl

/-! ### The six operations -/

/-- `ADD` (43_arith.md R176). -/
theorem arithAdd_writesDstOnly (o : ArithOperands) : WritesDstOnly (.arithAdd o) o (· + ·) :=
  writesDstOnly_of_alu (fun _ => rfl) (fun _ _ => rfl) rfl fun _ _ => rfl

/-- `SUB` (43_arith.md R177). -/
theorem arithSub_writesDstOnly (o : ArithOperands) : WritesDstOnly (.arithSub o) o (· - ·) :=
  writesDstOnly_of_alu (fun _ => rfl) (fun _ _ => rfl) rfl fun _ _ => rfl

/-- `MUL` (43_arith.md R178). -/
theorem arithMul_writesDstOnly (o : ArithOperands) : WritesDstOnly (.arithMul o) o (· * ·) :=
  writesDstOnly_of_alu (fun _ => rfl) (fun _ _ => rfl) rfl fun _ _ => rfl

/-- `AND` (43_arith.md R180). -/
theorem arithAnd_writesDstOnly (o : ArithOperands) : WritesDstOnly (.arithAnd o) o (· &&& ·) :=
  writesDstOnly_of_alu (fun _ => rfl) (fun _ _ => rfl) rfl fun _ _ => rfl

/-- `XOR` (43_arith.md R181). -/
theorem arithXor_writesDstOnly (o : ArithOperands) : WritesDstOnly (.arithXor o) o (· ^^^ ·) :=
  writesDstOnly_of_alu (fun _ => rfl) (fun _ _ => rfl) rfl fun _ _ => rfl

/-- Settles O30: the machine's sum, difference and product are those of the numbers modulo 2^32. -/
theorem addSubMulWrap : Obligations.AddSubMulWrap := by
  have hadd : (fun a b : Word => BitVec.ofNat 32 (a.toNat + b.toNat)) = (· + ·) := by
    funext a b
    simp [BitVec.ofNat_add]
  have hsub : (fun a b : Word => BitVec.ofInt 32 ((a.toNat : Int) - (b.toNat : Int))) = (· - ·) := by
    funext a b
    rw [Int.sub_eq_add_neg, BitVec.ofInt_add, BitVec.ofInt_neg, BitVec.sub_eq_add_neg]
    simp
  have hmul : (fun a b : Word => BitVec.ofNat 32 (a.toNat * b.toNat)) = (· * ·) := by
    funext a b
    simp [BitVec.ofNat_mul]
  unfold Obligations.AddSubMulWrap
  rw [hadd, hsub, hmul]
  exact fun o => ⟨arithAdd_writesDstOnly o, arithSub_writesDstOnly o, arithMul_writesDstOnly o⟩

/-- Settles O31: the machine's conjunction and exclusive or, bit by bit. -/
theorem andXorActBitByBit : Obligations.AndXorActBitByBit := by
  have hand : (fun a b : Word => BitVec.ofFnLE fun k : Fin 32 => a.getLsbD k && b.getLsbD k) = (· &&& ·) := by
    funext a b
    apply BitVec.eq_of_getLsbD_eq
    intro k hk
    simp [hk]
  have hxor : (fun a b : Word => BitVec.ofFnLE fun k : Fin 32 => a.getLsbD k != b.getLsbD k) = (· ^^^ ·) := by
    funext a b
    apply BitVec.eq_of_getLsbD_eq
    intro k hk
    simp [hk]
  unfold Obligations.AndXorActBitByBit
  rw [hand, hxor]
  exact fun o => ⟨arithAnd_writesDstOnly o, arithXor_writesDstOnly o⟩

/-- Settles O34: De Morgan's laws, and that `RT` reads all ones. -/
theorem negationFlagsGiveTheOtherLogic : Obligations.NegationFlagsGiveTheOtherLogic := by
  intro d a b m nm
  refine ⟨writesDstOnly_of_alu (fun _ => rfl) (fun _ _ => rfl) rfl fun s j => ?_,
    writesDstOnly_of_alu (fun _ => rfl) (fun _ _ => rfl) rfl fun s j => rfl,
    writesDstOnly_of_alu (fun _ => rfl) (fun _ _ => rfl) rfl fun s j => ?_,
    writesDstOnly_of_alu (fun _ => rfl) (fun _ _ => rfl) rfl fun s j => ?_⟩
  · simp [andResult, operand, complementIf, BitVec.not_and]
  · simp [andResult, operand, complementIf, BitVec.not_or]
  · exact BitVec.xor_allOnes

/-- Settles O35: the addition leaves the right operand alone, and subtraction undoes addition modulo 2^32. -/
theorem subUndoesAdd : Obligations.SubUndoesAdd := by
  intro d e a b m nm s i hd he hdb hi
  obtain ⟨t, ht, hsame, hread⟩ := arithAdd_writesDstOnly ⟨d, a, b, m, false, false, false, nm⟩ s
  obtain ⟨u, hu, -, hread'⟩ := arithSub_writesDstOnly ⟨e, d, b, m, false, false, false, nm⟩ t
  have hit : t.laneActive i = true := by
    obtain ⟨hmask, hvlen, -⟩ := hsame
    rw [State.laneActive_iff] at hi ⊢
    rwa [hvlen, hmask]
  have hsum : t.readReg d i = s.readReg a i + s.readReg b i := (hread d i).trans (if_pos ⟨rfl, hd, hi⟩)
  have hkept : t.readReg b i = s.readReg b i := (hread b i).trans (if_neg fun h => hdb h.1.symm)
  refine ⟨t, u, ht, hu, (hread' e i).trans ((if_pos ⟨rfl, he, hit⟩).trans ?_)⟩
  simp only [complementIf, hsum, hkept]
  simp

/-! ### DIV -/

/-- `DIV`, as numbers: quotient and remainder of the operands, both 0 for a zero divisor (43_arith.md R179). -/
theorem divResult_eq (a b : Word) :
    divResult a b = ⟨if b.toNat = 0 then 0 else BitVec.ofNat 32 (a.toNat / b.toNat),
      some (if b.toNat = 0 then 0 else BitVec.ofNat 32 (a.toNat - a.toNat / b.toNat * b.toNat))⟩ := by
  by_cases hb : b = 0
  · subst hb
    rfl
  · have hb' : b.toNat ≠ 0 := fun h => hb (BitVec.eq_of_toNat_eq h)
    have hquot : a / b = BitVec.ofNat 32 (a.toNat / b.toNat) := by
      rw [← BitVec.toNat_udiv, BitVec.ofNat_toNat, BitVec.setWidth_eq]
    have hrem : a % b = BitVec.ofNat 32 (a.toNat - a.toNat / b.toNat * b.toNat) := by
      rw [Nat.mul_comm, ← Nat.mod_eq_sub_mul_div, ← BitVec.toNat_umod, BitVec.ofNat_toNat, BitVec.setWidth_eq]
    rw [divResult, if_neg hb, if_neg hb', if_neg hb', hquot, hrem]

/-- `DIV` leaves alone every register lane that is not an active lane of `dst` or `rem` with storage. -/
theorem div_readReg_other (o : ArithOperands) (s : State) {r : Reg} {j : Nat}
    (h : (r ≠ o.dst ∧ r ≠ o.rem) ∨ r.backed = false ∨ s.laneActive j = false) :
    (forActiveLanes (arithLane divResult o) s).readReg r j = s.readReg r j := by
  rw [(arith_spec divResult o s).2]
  split
  · rename_i hj
    have hrem : ¬ (r = o.rem ∧ o.rem.backed = true) := by
      rintro ⟨rfl, hb⟩
      simp [hj, hb] at h
    have hdst : ¬ (r = o.dst ∧ o.dst.backed = true) := by
      rintro ⟨rfl, hb⟩
      simp [hj, hb] at h
    rw [arithLaneResult, divResult_eq]
    exact (if_neg hrem).trans (if_neg hdst)
  · rfl

/-- The remainder of `DIV`, which is written last (43_arith.md R175). -/
theorem div_readReg_rem (o : ArithOperands) (s : State) {j : Nat} (hj : s.laneActive j = true)
    (hb : o.rem.backed = true) {a b : Nat} (ha : a = (operand o.lhs o.negateLhs j s).toNat)
    (hb' : b = (operand o.rhs o.negateRhs j s).toNat) :
    (forActiveLanes (arithLane divResult o) s).readReg o.rem j
      = complementIf o.negateRem (if b = 0 then 0 else BitVec.ofNat 32 (a - a / b * b)) := by
  rw [(arith_spec divResult o s).2, if_pos hj, arithLaneResult, divResult_eq, ha, hb']
  exact if_pos ⟨rfl, hb⟩

/-- The quotient of `DIV`, where the remainder goes to another register. -/
theorem div_readReg_dst (o : ArithOperands) (s : State) {j : Nat} (hj : s.laneActive j = true)
    (hb : o.dst.backed = true) (hne : o.dst ≠ o.rem) {a b : Nat} (ha : a = (operand o.lhs o.negateLhs j s).toNat)
    (hb' : b = (operand o.rhs o.negateRhs j s).toNat) :
    (forActiveLanes (arithLane divResult o) s).readReg o.dst j
      = complementIf o.negateDst (if b = 0 then 0 else BitVec.ofNat 32 (a / b)) := by
  rw [(arith_spec divResult o s).2, if_pos hj, arithLaneResult, divResult_eq, ha, hb']
  exact (if_neg fun h => hne h.1).trans (if_pos ⟨rfl, hb⟩)

/-- Settles O32: quotient and remainder go to different registers, so neither write undoes the other. -/
theorem divGivesQuotientAndRemainder : Obligations.DivGivesQuotientAndRemainder :=
  fun o s hne => ⟨_, rfl, (arith_spec divResult o s).1.sameOutsideRegs, fun _ _ h => div_readReg_other o s h,
    fun _ hj _ _ ha hb => ⟨fun hdst => div_readReg_dst o s hj hdst hne ha hb,
      fun hrem => div_readReg_rem o s hj hrem ha hb⟩⟩

/-- Settles O33: the remainder is written last. -/
theorem divIntoOneRegisterLeavesTheRemainder : Obligations.DivIntoOneRegisterLeavesTheRemainder :=
  fun o s heq => ⟨_, rfl, (arith_spec divResult o s).1.sameOutsideRegs,
    fun _ _ h => div_readReg_other o s (h.imp_left fun hr => ⟨heq ▸ hr, hr⟩),
    fun _ hj hrem _ _ ha hb => div_readReg_rem o s hj hrem ha hb⟩

end Sys2Proof.Machine
end

section
/-! PROOFS. The words that execute as a fault (30_encoding.md R96; 60_exceptions.md R244, R245): which words they are,
what each form's meaning does, and that `Execute` puts the whole word into the record (log entry 5). -/

namespace Sys2Proof.Machine

/-! ### Which words decode to which form -/

/-- `arith` with `horizontal` = 1 and an operation is one of the horizontal forms. -/
theorem exists_horizontalForm {op : BitVec 3} (h : op.toNat ≤ 5) :
    ∃ form ∈ horizontalForms, ∀ o, arithForm op true o = form o := by
  rcases op_cases op with rfl | rfl | rfl | rfl | rfl | rfl | rfl | rfl
  · exact ⟨.illegalArithHorizontalOp0, by simp [horizontalForms], fun _ => rfl⟩
  · exact ⟨.illegalArithHorizontalOp1, by simp [horizontalForms], fun _ => rfl⟩
  · exact ⟨.illegalArithHorizontalOp2, by simp [horizontalForms], fun _ => rfl⟩
  · exact ⟨.illegalArithHorizontalOp3, by simp [horizontalForms], fun _ => rfl⟩
  · exact ⟨.illegalArithHorizontalOp4, by simp [horizontalForms], fun _ => rfl⟩
  · exact ⟨.illegalArithHorizontalOp5, by simp [horizontalForms], fun _ => rfl⟩
  · exact absurd h (by decide)
  · exact absurd h (by decide)

/-- `arith` whose `op` names no operation is one of the unknown forms, whatever `horizontal` is. -/
theorem exists_unknownOpForm {op : BitVec 3} (h : 6 ≤ op.toNat) :
    ∃ form ∈ unknownOpForms, ∀ b o, arithForm op b o = form ⟨o, b⟩ := by
  rcases op_cases op with rfl | rfl | rfl | rfl | rfl | rfl | rfl | rfl
  iterate 6 exact absurd h (by decide)
  · exact ⟨.illegalArithOp6, by simp [unknownOpForms], fun _ _ => rfl⟩
  · exact ⟨.illegalArithOp7, by simp [unknownOpForms], fun _ _ => rfl⟩

/-- A horizontal word with an operation decodes to its form with its operands (43_arith.md R174). -/
theorem decode_horizontal {w : Word} (ht : tagOf w = opcArith) (hop : (opOf w).toNat ≤ 5)
    (hh : horizontalOf w = true) : ∃ form ∈ horizontalForms, decode w = form (arithOperandsOf w) := by
  obtain ⟨form, hmem, hform⟩ := exists_horizontalForm hop
  exact ⟨form, hmem, by rw [decode_of_tagOf_eq_opcArith ht, decodeArith_eq, hh, hform]⟩

/-- An `arith` word with `op` 6 or 7 decodes to its form with its fields (43_arith.md R173). -/
theorem decode_unknownOp {w : Word} (ht : tagOf w = opcArith) (hop : 6 ≤ (opOf w).toNat) :
    ∃ form ∈ unknownOpForms, decode w = form ⟨arithOperandsOf w, horizontalOf w⟩ := by
  obtain ⟨form, hmem, hform⟩ := exists_unknownOpForm hop
  exact ⟨form, hmem, by rw [decode_of_tagOf_eq_opcArith ht, decodeArith_eq, hform]⟩

/-- A word with tag 9 to 15 decodes to its form, which keeps it (30_encoding.md R99). -/
theorem decode_unknownTag {w : Word} (h : 9 ≤ (tagOf w).toNat) :
    ∃ form ∈ unknownTagForms, decode w = form w := by
  obtain ⟨h9, h10, h11, h12, h13, h14, h15⟩ := decode_of_unknown_tag w
  rcases tag_cases (tagOf w) with
    ht | ht | ht | ht | ht | ht | ht | ht | ht | ht | ht | ht | ht | ht | ht | ht
  iterate 9 exact absurd (ht ▸ h) (by decide)
  · exact ⟨_, by simp [unknownTagForms], h9 ht⟩
  · exact ⟨_, by simp [unknownTagForms], h10 ht⟩
  · exact ⟨_, by simp [unknownTagForms], h11 ht⟩
  · exact ⟨_, by simp [unknownTagForms], h12 ht⟩
  · exact ⟨_, by simp [unknownTagForms], h13 ht⟩
  · exact ⟨_, by simp [unknownTagForms], h14 ht⟩
  · exact ⟨_, by simp [unknownTagForms], h15 ht⟩

/-- The words that execute as a fault are those two kinds: no operation is named, or the operation is horizontal. -/
theorem word_of_executesAsFault {w : Word} (h : executesAsFault (decode w) = true) :
    (9 ≤ (tagOf w).toNat ∨ (tagOf w = opcArith ∧ 6 ≤ (opOf w).toNat))
      ∨ (tagOf w = opcArith ∧ (opOf w).toNat ≤ 5 ∧ horizontalOf w = true) := by
  rcases tag_cases (tagOf w) with
    ht | ht | ht | ht | ht | ht | ht | ht | ht | ht | ht | ht | ht | ht | ht | ht
  · rw [decode_of_tagOf_eq_opcVlenset ht] at h
    cases h
  · rw [decode_of_tagOf_eq_opcMaskset ht] at h
    cases h
  · rw [decode_of_tagOf_eq_opcMemory ht] at h
    split at h <;> cases h
  · rw [decode_of_tagOf_eq_opcCopy ht] at h
    split at h <;> cases h
  · rw [decode_of_tagOf_eq_opcArith ht, decodeArith_eq] at h
    rcases Nat.lt_or_ge (opOf w).toNat 6 with hop | hop
    · refine .inr ⟨ht, Nat.le_of_lt_succ hop, ?_⟩
      by_contra hh
      rw [Bool.eq_false_iff.2 hh] at h
      rcases op_cases (opOf w) with hw | hw | hw | hw | hw | hw | hw | hw <;> rw [hw] at h hop
      iterate 6 cases h
      · exact absurd hop (by decide)
      · exact absurd hop (by decide)
    · exact .inl (.inr ⟨ht, hop⟩)
  · rw [decode_of_tagOf_eq_opcJz ht] at h
    cases h
  · rw [decode_of_tagOf_eq_opcBz ht] at h
    cases h
  · rw [decode_of_tagOf_eq_opcRet ht] at h
    cases h
  · rw [decode_of_tagOf_eq_opcInter ht] at h
    cases h
  iterate 7 exact .inl (.inl (by rw [ht]; decide))

/-! ### What they do -/

/-- The meaning of a horizontal form. -/
theorem exec_horizontalForm {form : ArithOperands → Instr} (h : form ∈ horizontalForms) (o : ArithOperands)
    (s : State) : exec (form o) s = .next (raise (.unsupported .horizontal (encode (form o))) s) := by
  simp only [horizontalForms, List.mem_cons, List.not_mem_nil, or_false] at h
  rcases h with rfl | rfl | rfl | rfl | rfl | rfl <;> rfl

/-- The meaning of an `op` 6 or 7 form. -/
theorem exec_unknownOpForm {form : UnknownArith → Instr} (h : form ∈ unknownOpForms) (u : UnknownArith) (s : State) :
    exec (form u) s = .next (raise (.unknownOpcode (encode (form u))) s) := by
  simp only [unknownOpForms, List.mem_cons, List.not_mem_nil, or_false] at h
  rcases h with rfl | rfl <;> rfl

/-- The meaning of a tag 9 to 15 form, whose canonical word is the word it keeps. -/
theorem exec_unknownTagForm {form : Word → Instr} (h : form ∈ unknownTagForms) (w : Word) (s : State) :
    encode (form w) = w ∧ exec (form w) s = .next (raise (.unknownOpcode w) s) := by
  simp only [unknownTagForms, List.mem_cons, List.not_mem_nil, or_false] at h
  rcases h with rfl | rfl | rfl | rfl | rfl | rfl | rfl <;> exact ⟨rfl, rfl⟩

/-- `Execute` of a word whose meaning raises a fault raises it with the word in the record. -/
theorem execute_of_raise {w : Word} {s : State} {c : FaultCause} (h : exec (decode w) s = .next (raise c s)) :
    execute w s = .next (raise (c.ofWord w) s) :=
  execute_of_exec h

/-- `Execute` of a horizontal word with an operation (60_exceptions.md R245). -/
theorem execute_horizontal {w : Word} (ht : tagOf w = opcArith) (hop : (opOf w).toNat ≤ 5)
    (hh : horizontalOf w = true) (s : State) :
    execute w s = .next (raise (.unsupported .horizontal w) s) := by
  obtain ⟨form, hmem, hform⟩ := decode_horizontal ht hop hh
  exact execute_of_raise (hform ▸ exec_horizontalForm hmem _ s)

/-- `Execute` of a word that names no operation (60_exceptions.md R244). -/
theorem execute_unknown {w : Word} (h : 9 ≤ (tagOf w).toNat ∨ (tagOf w = opcArith ∧ 6 ≤ (opOf w).toNat))
    (s : State) : execute w s = .next (raise (.unknownOpcode w) s) := by
  rcases h with h | ⟨ht, hop⟩
  · obtain ⟨form, hmem, hform⟩ := decode_unknownTag h
    exact execute_of_raise (hform ▸ (exec_unknownTagForm hmem w s).2)
  · obtain ⟨form, hmem, hform⟩ := decode_unknownOp ht hop
    exact execute_of_raise (hform ▸ exec_unknownOpForm hmem _ s)

/-! ### The obligations -/

/-- Settles O36: such a word is a word of a horizontal form, whose meaning raises the fault. -/
theorem horizontalArithIsUnsupported : Obligations.HorizontalArithIsUnsupported :=
  ⟨fun _ ht hop hh => ⟨decode_horizontal ht hop hh,
      fun s => ⟨_, execute_horizontal ht hop hh s, rfl, sameOutsideStatus_raise _ s⟩⟩,
    fun _ hmem o s => ⟨_, exec_horizontalForm hmem o s, rfl, sameOutsideStatus_raise _ s⟩⟩

/-- Settles O37: such a word is a word of an unknown form, whose meaning raises the fault. -/
theorem unknownOpcodesFault : Obligations.UnknownOpcodesFault :=
  ⟨fun _ => decode_unknownTag, fun _ => decode_unknownOp,
    fun _ h s => ⟨_, execute_unknown h s, rfl, sameOutsideStatus_raise _ s⟩,
    fun _ hmem w s => ⟨_, (exec_unknownTagForm hmem w s).2, rfl, sameOutsideStatus_raise _ s⟩,
    fun _ hmem u s => ⟨_, exec_unknownOpForm hmem u s, rfl, sameOutsideStatus_raise _ s⟩⟩

/-- Every instruction answers a next state. -/
theorem exec_next (i : Instr) (s : State) : ∃ t, exec i s = .next t := by
  cases i <;> exact ⟨_, rfl⟩

/-- Settles O57: an instruction that does not execute as a fault records no word, one that does records the word
given, and two words that differ only in ignored bits have one meaning. -/
theorem executeRecordsTheWord : Obligations.ExecuteRecordsTheWord := by
  refine ⟨fun w s hr hw => execute_eq_exec hw (recordsNoWord_of_isRunning hr), fun w s hw => ?_,
    fun v w s hkept hagree => ?_⟩
  · rcases word_of_executesAsFault hw with h | ⟨ht, hop, hh⟩
    · exact ⟨_, execute_unknown h s, sameOutsideStatus_raise _ s, .inl rfl⟩
    · exact ⟨_, execute_horizontal ht hop hh s, sameOutsideStatus_raise _ s, .inr rfl⟩
  · have hdecode : decode w = decode v := ignoredBitsDoNotMatter v w hkept hagree
    obtain ⟨x, hx⟩ := exec_next (decode v) s
    have hv := execute_of_exec hx
    have hw := execute_of_exec (w := w) (hdecode ▸ hx)
    refine ⟨_, _, hv, hw, rfl, rfl, rfl, rfl, rfl, rfl, fun hr hfault => ?_⟩
    have hs := recordsNoWord_of_isRunning hr
    have heq : execute w s = execute v s := by
      rw [execute_eq_exec hfault hs, execute_eq_exec (hdecode ▸ hfault) hs, hdecode]
    rw [hv, hw, Host.Outcome.next.injEq] at heq
    exact congrArg State.status heq

end Sys2Proof.Machine
end

section
/-! PROOFS. The obligations of 44_control.md. A branch is decided by the active lanes of its flag
(`zeroTest_iff`), and the stack's word by what push puts in memory (`pushedMem`) and pop reads from it. -/

namespace Sys2Proof.Machine

/-! ### Branches -/

/-- The target of a branch: `ip` plus the signed offset in bytes, modulo 2^32 (44_control.md R201). -/
theorem branchTarget_eq (offset : BitVec 16) (s : State) :
    branchTarget offset s = BitVec.ofInt 32 ((s.ip.toNat : Int) + offset.toInt) := by
  simp [branchTarget, branchOffset, offsetSigned, BitVec.ofInt_add, BitVec.signExtend]

/-- The frame of a write to `ip`. -/
theorem State.sameOutsideIp_setIp (s : State) (v : Word) : SameOutsideIp s (s.setIp v) := by
  simp [SameOutsideIp, SameRegs, SameMask, SameMem]

/-- A `jz` that is taken (44_control.md R203). -/
theorem exec_jz_taken {flag : Reg} {s : State} (h : ActiveLanesZero flag s) (offset : BitVec 16) :
    exec (.jz flag offset) s = .next (takeBranch offset s) :=
  congrArg Host.Outcome.next (if_pos ((zeroTest_iff flag s).2 h))

/-- A `jz` that is not taken. -/
theorem exec_jz_notTaken {flag : Reg} {s : State} (h : ¬ ActiveLanesZero flag s) (offset : BitVec 16) :
    exec (.jz flag offset) s = .next s :=
  congrArg Host.Outcome.next (if_neg fun hz => h ((zeroTest_iff flag s).1 hz))

/-- `bz` without `save_ip` is `jz` (44_control.md R206). -/
theorem exec_bz_false (flag : Reg) (offset : BitVec 16) (s : State) :
    exec (.bz flag false offset) s = exec (.jz flag offset) s := rfl

/-- A `bz` with `save_ip` that is taken (44_control.md R204). -/
theorem exec_bz_call {flag : Reg} {s : State} (h : ActiveLanesZero flag s) (offset : BitVec 16) :
    exec (.bz flag true offset) s = .next (orRaise s (callBranch offset s)) :=
  congrArg Host.Outcome.next (if_pos ((zeroTest_iff flag s).2 h))

/-- A `bz` that is not taken. -/
theorem exec_bz_notTaken {flag : Reg} {s : State} (h : ¬ ActiveLanesZero flag s) (saveIp : Bool)
    (offset : BitVec 16) : exec (.bz flag saveIp offset) s = .next s :=
  congrArg Host.Outcome.next (if_neg fun hz => h ((zeroTest_iff flag s).1 hz))

/-- Nothing differs between a state and itself. -/
theorem sameState_refl (s : State) : SameState s s :=
  ⟨⟨fun _ _ => rfl, fun _ => rfl, rfl, rfl, rfl, rfl, fun _ => rfl⟩, rfl⟩

/-- Settles O38: taken, `jz` writes `ip`; not taken, it writes nothing. -/
theorem jzJumpsWhenActiveLanesAreZero : Obligations.JzJumpsWhenActiveLanesAreZero := by
  intro flag offset s
  by_cases h : ActiveLanesZero flag s
  · exact ⟨_, exec_jz_taken h offset, s.sameOutsideIp_setIp _, fun _ => branchTarget_eq offset s, fun hn => absurd h hn⟩
  · exact ⟨s, exec_jz_notTaken h offset, s.sameOutsideIp_setIp s.ip, fun hz => absurd hz h, fun _ => rfl⟩

/-- Settles O44: the two meanings are one. -/
theorem bzWithoutSaveIsJz : Obligations.BzWithoutSaveIsJz := exec_bz_false

/-- Settles O45: `RF` reads zero in every lane, no active lane reads anything, and `RT` reads all ones. -/
theorem branchesOnConstantsAndNoLanes : Obligations.BranchesOnConstantsAndNoLanes := by
  refine ⟨fun offset s => ?_, fun flag offset s hnone => ?_, fun offset s i hi => ?_⟩
  · exact ⟨_, exec_jz_taken (fun j _ => s.readReg_rf j) offset, branchTarget_eq offset s⟩
  · have hzero : ActiveLanesZero flag s := fun j hj => by
      rw [hnone j] at hj
      cases hj
    exact ⟨_, exec_jz_taken hzero offset, branchTarget_eq offset s⟩
  · refine exec_jz_notTaken (fun hz => ?_) offset
    have hrt := hz i hi
    rw [State.readReg_rt] at hrt
    exact absurd hrt (by decide)

/-! ### The stack -/

/-- The memory a push of `w` that is made leaves: the word little-endian at the new `sp` (44_control.md R210). -/
def pushedMem (w : Word) (s : State) : Memory := s.mem.setBytes (s.sp - 4).toNat (leBytes 4 w)

theorem push_eq_pushedMem (w : Word) {s : State} (h : 4 ≤ s.sp.toNat) (hl : s.sp.toNat ≤ s.mem.len) :
    push w s = .ok ((s.setSp (s.sp - 4)).setMem (pushedMem w s)) :=
  push_of_inBounds w h hl

/-- What a push puts in memory, and what it leaves alone. -/
theorem pushedMem_spec (w : Word) {s : State} (hw : s.mem.wf = true) (h : 4 ≤ s.sp.toNat)
    (hl : s.sp.toNat ≤ s.mem.len) :
    (pushedMem w s).wf = true ∧ (pushedMem w s).len = s.mem.len
      ∧ (∀ k, k < 4 → (pushedMem w s).byte (s.sp.toNat - 4 + k) = bits (8 * k) 8 w)
      ∧ ∀ a, (a < s.sp.toNat - 4 ∨ s.sp.toNat ≤ a) → (pushedMem w s).byte a = s.mem.byte a := by
  have haddr := toNat_sub_four h
  obtain ⟨-, hwf, hlen, hbyte⟩ :=
    Memory.write_spec hw (Memory.write_of_inBounds (addr := s.sp - 4) (n := 4) (by omega) w)
  rw [haddr] at hbyte
  refine ⟨hwf, hlen, fun k hk => ?_, fun a ha => ?_⟩
  · rw [pushedMem, haddr, hbyte, if_pos ⟨by omega, by omega⟩, Nat.add_sub_cancel_left]
  · rw [pushedMem, haddr, hbyte, if_neg (by omega)]

/-- A word known by its bytes in memory is what a read of them gives. -/
theorem leWord_bytes_eq {m : Memory} {a : Nat} {w : Word} (h : ∀ k, k < 4 → m.byte (a + k) = bits (8 * k) 8 w) :
    leWord (m.bytes a 4) = w :=
  word_ext_bits fun k hk => by rw [bits_leWord_bytes m a 4 hk, if_pos hk, h k hk]

/-- A taken `bz` with `save_ip` whose push is made (44_control.md R204). -/
theorem exec_bz_call_inBounds {flag : Reg} {s : State} (h : ActiveLanesZero flag s) (offset : BitVec 16)
    (h4 : 4 ≤ s.sp.toNat) (hl : s.sp.toNat ≤ s.mem.len) :
    exec (.bz flag true offset) s
      = .next (takeBranch offset ((s.setSp (s.sp - 4)).setMem (pushedMem s.ip s))) := by
  rw [exec_bz_call h, callBranch, push_eq_pushedMem _ h4 hl]
  rfl

/-- Settles O40: the push is the first of the three outcomes of a call. -/
theorem callWithNoRoomUnderflows : Obligations.CallWithNoRoomUnderflows := by
  intro flag offset s hz h4
  rcases call_cases offset s with ⟨-, h⟩ | ⟨h4', -, -⟩ | ⟨h4', -, -⟩
  · exact ⟨_, (exec_bz_call hz offset).trans (congrArg _ h), rfl, sameOutsideStatus_raise _ s⟩
  · omega
  · omega

/-- Settles O41: the push is the second of the three outcomes of a call. -/
theorem callAboveMemoryFaults : Obligations.CallAboveMemoryFaults := by
  intro flag offset s hz h4 hl
  rcases call_cases offset s with ⟨h4', -⟩ | ⟨-, -, h⟩ | ⟨-, hl', -⟩
  · omega
  · exact ⟨_, (exec_bz_call hz offset).trans (congrArg _ h), rfl, sameOutsideStatus_raise _ s⟩
  · omega

/-- Settles O39: not taken; taken without `save_ip`; taken with it, where the push is made. -/
theorem bzBranchesAndSavesItsReturn : Obligations.BzBranchesAndSavesItsReturn := by
  intro flag saveIp offset s hw hroom
  by_cases hz : ActiveLanesZero flag s
  · cases saveIp with
    | false =>
      obtain ⟨hregs, hmask, hvlen, hsp, hstatus, hmem⟩ := s.sameOutsideIp_setIp (branchTarget offset s)
      exact ⟨_, (exec_bz_false flag offset s).trans (exec_jz_taken hz offset), hregs, hmask, hvlen, hstatus, hmem.1,
        fun hn => absurd hz hn, fun _ => branchTarget_eq offset s, fun _ _ => ⟨hsp, hmem⟩,
        fun _ hb => absurd hb (by decide)⟩
    | true =>
      obtain ⟨h4, hl⟩ := hroom hz rfl
      obtain ⟨-, hlen, hslot, hother⟩ := pushedMem_spec s.ip hw h4 hl
      exact ⟨_, exec_bz_call_inBounds hz offset h4 hl, fun _ _ => rfl, fun _ => rfl, rfl, rfl, hlen,
        fun hn => absurd hz hn, fun _ => branchTarget_eq offset s, fun _ hb => absurd hb (by decide),
        fun _ _ => ⟨toNat_sub_four h4, hslot, hother⟩⟩
  · exact ⟨s, exec_bz_notTaken hz saveIp offset, fun _ _ => rfl, fun _ => rfl, rfl, rfl, rfl, fun _ => sameState_refl s,
      fun h => absurd h hz, fun h => absurd h hz, fun h => absurd h hz⟩

/-- A `ret` whose pop is made (44_control.md R205). -/
theorem exec_ret_inBounds {s : State} (h : s.sp.toNat + 4 ≤ s.mem.len) :
    exec .ret s = .next ((s.setSp (s.sp + 4)).setIp (leWord (s.mem.bytes s.sp.toNat 4))) := by
  rcases ret_cases s with ⟨hl, -⟩ | ⟨-, hret⟩
  · omega
  · exact congrArg Host.Outcome.next hret

/-- Settles O42: in and out of bounds are the two outcomes of a pop. -/
theorem retPopsIntoIp : Obligations.RetPopsIntoIp := by
  refine ⟨fun s hb => ⟨_, exec_ret_inBounds hb, fun k hk => ?_, (ofNat_toNat_add_four s.sp).symm, fun _ _ => rfl,
    fun _ => rfl, rfl, rfl, rfl, fun _ => rfl⟩, fun s hl => ?_⟩
  · exact (bits_leWord_bytes s.mem s.sp.toNat 4 hk).trans (if_pos hk)
  · rcases ret_cases s with ⟨-, h⟩ | ⟨hb, -⟩
    · exact ⟨_, congrArg Host.Outcome.next h, rfl, sameOutsideStatus_raise _ s⟩
    · omega

/-- Settles O43: the pop reads the four bytes the call pushed, and gives `sp` back what the call took. -/
theorem returnComesBackAfterTheCall : Obligations.ReturnComesBackAfterTheCall := by
  intro flag offset s hw hz h4 hl
  obtain ⟨-, hlen, hslot, -⟩ := pushedMem_spec s.ip hw h4 hl
  have hsp4 := toNat_sub_four h4
  refine ⟨_, exec_bz_call_inBounds hz offset h4 hl, fun u husp hulen hubytes => ?_⟩
  replace husp : u.sp = s.sp - 4 := husp
  replace hulen : u.mem.len = s.mem.len := hulen.trans hlen
  have hbytes : ∀ k, k < 4 → u.mem.byte (u.sp.toNat + k) = bits (8 * k) 8 s.ip := fun k hk => by
    rw [← hslot k hk, husp, ← hsp4]
    exact hubytes k hk
  refine ⟨_, exec_ret_inBounds (by rw [husp, hulen]; omega), leWord_bytes_eq hbytes, ?_⟩
  exact (congrArg (· + 4) husp).trans (BitVec.sub_add_cancel _ _)

end Sys2Proof.Machine
end

section
/-! PROOFS. The obligations of 45_inter.md, 70_reset_and_hazards.md and 40_execution_cycle.md about `inter`, the host's
operations, reset, and a core that stands still or is given its next word. -/

namespace Sys2Proof.Machine

/-! ### `inter` and `Resume` -/

/-- The frame of a write to the status. -/
theorem State.sameOutsideStatus_setStatus (s : State) (x : Status) : SameOutsideStatus s (s.setStatus x) := by
  simp [SameOutsideStatus, SameRegs, SameMask, SameMem]

/-- Settles O46: `inter` is one write to the status. -/
theorem interAsksTheHost : Obligations.InterAsksTheHost :=
  fun _ s => ⟨_, rfl, rfl, s.sameOutsideStatus_setStatus _⟩

/-- `Resume` on a host request (70_reset_and_hazards.md R291). -/
theorem hostResume_of_request {s : State} {n : BitVec 16} (h : s.status = .hostRequest n) :
    hostResume s = s.setStatus .running := by
  simp only [hostResume, h]

/-- `Resume` on a core with no host request. -/
theorem hostResume_of_no_request {s : State} (h : ∀ n, s.status ≠ .hostRequest n) : hostResume s = s := by
  unfold hostResume
  split
  · rfl
  · rfl
  · rename_i n hn
    exact absurd hn (h n)

/-- Settles O48: a resumed core after `inter` is the core before it. -/
theorem resumeClearsAHostRequestOnly : Obligations.ResumeClearsAHostRequestOnly := by
  refine ⟨fun s => hostResume_of_no_request, fun s n h => ?_, fun number s hr => ⟨_, rfl, ?_⟩⟩
  · rw [hostResume_of_request h]
    exact ⟨rfl, s.sameOutsideStatus_setStatus _⟩
  · have hsame : s.setStatus .running = s := status_of_isRunning hr ▸ s.setStatus_self
    rw [hostResume_of_request (n := number) rfl, State.setStatus_setStatus, hsame]

/-! ### `Push`, `Pop` and the host's writes -/

/-- A fault the host raises on a core that has not faulted is recorded. -/
theorem hostRaise_of_not_faulted {s : State} (h : ∀ c, s.status ≠ .faulted c) (c : FaultCause) :
    hostRaise c s = raise c s := by
  unfold hostRaise
  split
  · rfl
  · rename_i d hd
    exact absurd hd (h d)
  · rfl

/-- A fault the host raises on a faulted core is dropped (10_state.md R41; log entry 7). -/
theorem hostRaise_of_faulted {s : State} {d : FaultCause} (h : s.status = .faulted d) (c : FaultCause) :
    hostRaise c s = s := by
  simp only [hostRaise, h]

/-- A host push that is made. -/
theorem hostPush_of_inBounds (w : Word) {s : State} (h4 : 4 ≤ s.sp.toNat) (hl : s.sp.toNat ≤ s.mem.len) :
    hostPush w s = (s.setSp (s.sp - 4)).setMem (pushedMem w s) := by
  rw [hostPush, push_eq_pushedMem w h4 hl]

/-- A host push that faults. -/
theorem hostPush_of_error {w : Word} {s : State} {c : FaultCause} (h : push w s = .error c) :
    hostPush w s = hostRaise c s := by
  rw [hostPush, h]

/-- A host pop that is made. -/
theorem hostPop_of_inBounds {s : State} (h : s.sp.toNat + 4 ≤ s.mem.len) :
    hostPop s = (some (leWord (s.mem.bytes s.sp.toNat 4)), s.setSp (s.sp + 4)) := by
  rw [hostPop, pop_of_inBounds h]

/-- A host pop that faults. -/
theorem hostPop_of_outOfBounds {s : State} (h : s.mem.len < s.sp.toNat + 4) :
    hostPop s = (none, hostRaise (.stackOutOfBounds s.sp) s) := by
  rw [hostPop, pop_of_outOfBounds h]

/-- A push that is not made faults. -/
theorem push_fails (w : Word) {s : State} (h : s.sp.toNat < 4 ∨ s.mem.len < s.sp.toNat) :
    ∃ c, push w s = .error c := by
  rcases Nat.lt_or_ge s.sp.toNat 4 with h4 | h4
  · exact ⟨_, push_of_underflow w h4⟩
  · exact ⟨_, push_of_outOfBounds w h4 (by omega)⟩

/-- A pop after a push reads the word back and restores `sp`. -/
theorem hostPop_hostPush (w : Word) {s : State} (hw : s.mem.wf = true) (h4 : 4 ≤ s.sp.toNat)
    (hl : s.sp.toNat ≤ s.mem.len) :
    (hostPop (hostPush w s)).1 = some w ∧ (hostPop (hostPush w s)).2.sp = s.sp := by
  obtain ⟨-, hlen, hslot, -⟩ := pushedMem_spec w hw h4 hl
  have hsp4 := toNat_sub_four h4
  rw [hostPush_of_inBounds w h4 hl, hostPop_of_inBounds]
  · refine ⟨congrArg some (leWord_bytes_eq fun k hk => ?_), BitVec.sub_add_cancel _ _⟩
    rw [← hslot k hk]
    exact congrArg (fun a => (pushedMem w s).byte (a + k)) hsp4
  · simp only [State.sp_setMem, State.sp_setSp, State.mem_setMem, hlen, hsp4]
    omega

/-- Settles O49: the two outcomes of a host pop and the three of a host push, on a core that has faulted or not. -/
theorem hostPushAndPop : Obligations.HostPushAndPop := by
  refine ⟨fun w s hw h4 hl => ?_, fun s hb => ?_, fun w s hs h4 => ?_, fun w s hs h4 hl => ?_, fun s hs hl => ?_,
    fun w s c hs => ⟨fun h => ?_, fun hl => ?_⟩⟩
  · have hpop := hostPop_hostPush w hw h4 hl
    obtain ⟨hwf, hlen, hslot, hother⟩ := pushedMem_spec w hw h4 hl
    rw [hostPush_of_inBounds w h4 hl] at hpop ⊢
    exact ⟨toNat_sub_four h4, hslot, hother, fun _ _ => rfl, fun _ => rfl, rfl, rfl, rfl, hlen, hwf, hpop⟩
  · refine ⟨_, _, hostPop_of_inBounds hb, fun k hk => ?_, (ofNat_toNat_add_four s.sp).symm, fun _ _ => rfl,
      fun _ => rfl, rfl, rfl, rfl, rfl, fun _ => rfl⟩
    rw [bits_leWord_bytes _ _ _ hk, if_pos hk]
  · rw [hostPush_of_error (push_of_underflow w h4), hostRaise_of_not_faulted hs]
    exact ⟨rfl, sameOutsideStatus_raise _ s⟩
  · rw [hostPush_of_error (push_of_outOfBounds w h4 hl), hostRaise_of_not_faulted hs]
    exact ⟨rfl, sameOutsideStatus_raise _ s⟩
  · rw [hostPop_of_outOfBounds hl, hostRaise_of_not_faulted hs]
    exact ⟨rfl, rfl, sameOutsideStatus_raise _ s⟩
  · obtain ⟨d, hd⟩ := push_fails w h
    rw [hostPush_of_error hd, hostRaise_of_faulted hs]
  · rw [hostPop_of_outOfBounds hl, hostRaise_of_faulted hs]

/-- A host write of a byte inside memory (70_reset_and_hazards.md R290). -/
theorem hostWriteByte_of_inside {a : Nat} {s : State} (h : a < s.mem.len) (b : Byte) :
    hostWriteByte a b s = s.setMem (s.mem.setByte a b) :=
  if_pos h

/-- Settles O50: inside and outside memory are the write's own cases. -/
theorem hostWritesOneByteOrIp : Obligations.HostWritesOneByteOrIp := by
  refine ⟨fun a b s hw ha => ?_, fun a b s ha => if_neg (Nat.not_lt.2 ha),
    fun a s => ⟨rfl, s.sameOutsideIp_setIp a⟩⟩
  rw [hostWriteByte_of_inside ha]
  exact ⟨OnlyMem.sameOutsideMem rfl rfl, Memory.wf_setByte hw ha b, fun x => Memory.byte_setByte hw a x b⟩

/-! ### Reset -/

/-- Every lane of every general register is 0 after `Init` (10_state.md R44). -/
theorem readReg_hostInit (top : Word) (s : State) (n : Fin 14) (i : Nat) :
    (hostInit top s).readReg (.gpr n) i = 0 := by
  rcases Nat.lt_or_ge i 256 with hi | hi
  · rw [State.readReg_gpr _ n ⟨i, hi⟩]
    simp only [hostInit, State.init, Bank.get_fill]
  · exact State.readReg_gpr_of_le _ n hi

/-- Every mask bit is set after `Init` (10_state.md R44). -/
theorem readMask_hostInit (top : Word) (s : State) {i : Nat} (hi : i < 256) :
    (hostInit top s).readMask i = true := by
  rw [State.readMask_fin _ ⟨i, hi⟩]
  exact Bank.get_fill true _

/-- Settles O7: `Init` writes each element of the core state, and the reset state is `Init` of the reset memory. -/
theorem initGivesTheResetValues : Obligations.InitGivesTheResetValues :=
  ⟨fun top s => ⟨rfl, rfl, rfl, fun _ hi => readMask_hostInit top s hi, readReg_hostInit top s, rfl, rfl⟩,
    Config.resetStackTop, rfl⟩

/-- Settles O13: a running core's status says nothing, and the empty memory is in canonical form. -/
theorem resetMeetsTheInvariant : Obligations.ResetMeetsTheInvariant :=
  ⟨by decide, trivial⟩

/-! ### Standing still, and the next word -/

/-- Settles O10: by induction on the number of steps. -/
theorem stoppedCoreStaysStopped : Obligations.StoppedCoreStaysStopped := by
  intro n
  induction n with
  | zero => exact fun _ _ => rfl
  | succ n ih =>
    intro s hs
    have hstep : Sys2Proof.core.step s = .next s := step_of_stopped hs
    simp only [Host.Core.run, hstep]
    exact ih s hs

/-- Settles O11: a stopped core, a fetch out of bounds and an executed word all answer a next state. -/
theorem everyStepAnswersANextState : Obligations.EveryStepAnswersANextState := by
  intro s
  cases hr : s.isRunning with
  | false => exact ⟨s, step_of_stopped hr⟩
  | true =>
    rcases Nat.lt_or_ge s.mem.len (s.ip.toNat + 4) with hl | hl
    · exact ⟨_, step_of_outOfBounds hr hl⟩
    · obtain ⟨t, ht⟩ := exec_next (decode (leWord (s.mem.bytes s.ip.toNat 4))) (s.setIp (s.ip + 4))
      exact ⟨_, (step_of_fetch_ok hr (fetch_of_inBounds hl)).trans (execute_of_exec ht)⟩

/-- A state made fetchable runs, keeps the canonical form, and has the four bytes at `ip` inside memory. -/
theorem makeFetchable_spec {s : State} (hw : s.mem.wf = true) :
    (makeFetchable s).isRunning = true ∧ (makeFetchable s).mem.wf = true
      ∧ (makeFetchable s).ip.toNat + 4 ≤ (makeFetchable s).mem.len := by
  unfold makeFetchable
  by_cases hb : s.ip.toNat + 4 ≤ s.mem.len
  · have hin : (s.setStatus .running).mem.inBounds (s.setStatus .running).ip 4 = true :=
      (Memory.inBounds_iff _ _ _).2 hb
    rw [if_pos hin]
    exact ⟨rfl, hw, hb⟩
  · have hout : ¬ (s.setStatus .running).mem.inBounds (s.setStatus .running).ip 4 = true := fun h =>
      hb ((Memory.inBounds_iff _ _ _).1 h)
    obtain ⟨hmax, hrise, hcells⟩ := (Memory.wf_iff s.mem).1 hw
    rw [if_neg hout]
    refine ⟨rfl, (Memory.wf_iff _).2 ⟨max_le hmax (by decide), hrise, fun c hc => ?_⟩, le_max_right _ _⟩
    exact ⟨lt_max_of_lt_left (hcells c hc).1, (hcells c hc).2⟩

/-- The step after placing a word fetches that word. -/
theorem fetch_placeWord {s : State} (hw : s.mem.wf = true) (w : Word) :
    (placeWord w s).isRunning = true
      ∧ fetch (placeWord w s) = .ok (w, (placeWord w s).setIp ((placeWord w s).ip + 4)) := by
  obtain ⟨hrun, hwf, hb⟩ := makeFetchable_spec hw
  refine ⟨hrun, fetch_of_bytes ?_ fun k hk => ?_⟩
  · simpa [placeWord] using hb
  · obtain ⟨-, -, -, hbyte⟩ := Memory.write_spec hwf (Memory.write_of_inBounds hb w)
    refine Eq.trans ?_ (hbyte _).symm
    simp [placeWord, hk]

/-- Settles O12: the step of the placed state runs and fetches the placed word. -/
theorem placedWordRunsNext : Obligations.PlacedWordRunsNext := by
  intro s w hw hlt
  obtain ⟨hrun, hfetch⟩ := fetch_placeWord hw (BitVec.ofNat 32 w)
  have hplace : s.withFetchWord 32 w = placeWord (BitVec.ofNat 32 w) s := by
    rw [State.withFetchWord, Nat.mod_eq_of_lt hlt]
  rw [hplace]
  have hstep := step_of_fetch_ok hrun hfetch
  exact ⟨hstep, fun hfault =>
    hstep.trans (execute_eq_exec hfault (recordsNoWord_of_isRunning (isRunning_of_fetch_ok hrun hfetch)))⟩

end Sys2Proof.Machine
end

section
/-! PROOFS. The whole machine. `Does` says once everything an instruction can do to a state, whatever the form of the
memory; the statements over all instructions, and the invariant of a run, are case analyses of it. -/

namespace Sys2Proof.Machine

/-! ### The fields an operation on registers or on memory leaves alone -/

theorem OnlyRegs.vlen {s t : State} (h : OnlyRegs s t) : t.vlen = s.vlen := by rw [h]; rfl
theorem OnlyRegs.ip {s t : State} (h : OnlyRegs s t) : t.ip = s.ip := by rw [h]; rfl
theorem OnlyRegs.sp {s t : State} (h : OnlyRegs s t) : t.sp = s.sp := by rw [h]; rfl
theorem OnlyRegs.status {s t : State} (h : OnlyRegs s t) : t.status = s.status := by rw [h]; rfl
theorem OnlyRegs.mem {s t : State} (h : OnlyRegs s t) : t.mem = s.mem := by rw [h]; rfl

theorem OnlyMem.vlen {s t : State} (h : OnlyMem s t) : t.vlen = s.vlen := by rw [h]; rfl
theorem OnlyMem.ip {s t : State} (h : OnlyMem s t) : t.ip = s.ip := by rw [h]; rfl
theorem OnlyMem.sp {s t : State} (h : OnlyMem s t) : t.sp = s.sp := by rw [h]; rfl
theorem OnlyMem.status {s t : State} (h : OnlyMem s t) : t.status = s.status := by rw [h]; rfl

/-! ### What an instruction can do -/

/-- The registers differ at most in active lanes of the instruction's destinations with storage, and nothing else
does. -/
structure WritesDestinations (i : Instr) (s t : State) : Prop where
  onlyRegs : OnlyRegs s t
  lanes : ∀ r j, t.readReg r j ≠ s.readReg r j → r ∈ destinations i ∧ r.backed = true ∧ s.laneActive j = true

/-- The memory differs at most in bytes that an active lane's access of `n` bytes through `ptr` reaches, keeps its
length and its form, and nothing else differs. -/
structure WritesThrough (ptr : Reg) (n : Nat) (s t : State) : Prop where
  onlyMem : OnlyMem s t
  len : t.mem.len = s.mem.len
  wf : s.mem.wf = true → t.mem.wf = true
  byte : ∀ a, (∀ j, s.laneActive j = true → ¬ LaneReaches ptr n s j a) → t.mem.byte a = s.mem.byte a

/-- Everything an instruction can do to a state: one constructor per kind of outcome. -/
inductive Does : Instr → State → State → Prop where
  | vlenset (value : BitVec 8) (s : State) : Does (.vlenset value) s (s.setVlen value)
  | maskset (src : Reg) (s : State) (m : Bank Config.lanes Bool) : Does (.maskset src) s (s.setMask m)
  | regs {i : Instr} {s t : State} (ht : WritesDestinations i s t) : Does i s t
  | loadFault {reg ptr : Reg} {bc : BitVec 2} {s t : State} {k : Nat}
      (ht : WritesDestinations (.memoryLoad reg ptr bc) s t) (hptr : t.readReg ptr k = s.readReg ptr k)
      (hk : s.laneActive k = true) (hlt : s.mem.len < (s.readReg ptr k).toNat + (bc.toNat + 1)) :
      Does (.memoryLoad reg ptr bc) s (raise (.memoryOutOfBounds (s.readReg ptr k) (bc.toNat + 1) k) t)
  | store {reg ptr : Reg} {bc : BitVec 2} {s t : State} (ht : WritesThrough ptr (bc.toNat + 1) s t) :
      Does (.memoryStore reg ptr bc) s t
  | storeFault {reg ptr : Reg} {bc : BitVec 2} {s t : State} {k : Nat} (ht : WritesThrough ptr (bc.toNat + 1) s t)
      (hk : s.laneActive k = true) (hlt : s.mem.len < (s.readReg ptr k).toNat + (bc.toNat + 1)) :
      Does (.memoryStore reg ptr bc) s (raise (.memoryOutOfBounds (s.readReg ptr k) (bc.toNat + 1) k) t)
  | stay (i : Instr) (s : State) : Does i s s
  | jz (flag : Reg) (offset : BitVec 16) (s : State) : Does (.jz flag offset) s (takeBranch offset s)
  | bz (flag : Reg) (offset : BitVec 16) (s : State) : Does (.bz flag false offset) s (takeBranch offset s)
  | call (flag : Reg) (offset : BitVec 16) {s : State} (h4 : 4 ≤ s.sp.toNat) (hl : s.sp.toNat ≤ s.mem.len) :
      Does (.bz flag true offset) s (takeBranch offset ((s.setSp (s.sp - 4)).setMem (pushedMem s.ip s)))
  | callUnderflow (flag : Reg) (offset : BitVec 16) {s : State} (h4 : s.sp.toNat < 4) :
      Does (.bz flag true offset) s (raise (.stackPushUnderflow s.sp) s)
  | callOut (flag : Reg) (offset : BitVec 16) {s : State} (h4 : 4 ≤ s.sp.toNat) (hl : s.mem.len < s.sp.toNat) :
      Does (.bz flag true offset) s (raise (.stackOutOfBounds (s.sp - 4)) s)
  | ret (s : State) (sp ip : Word) : Does .ret s ((s.setSp sp).setIp ip)
  | retOut {s : State} (hl : s.mem.len < s.sp.toNat + 4) : Does .ret s (raise (.stackOutOfBounds s.sp) s)
  | inter (number : BitVec 16) (s : State) : Does (.inter number) s (s.setStatus (.hostRequest number))
  | illegal {i : Instr} {s : State} {c : FaultCause} (hi : executesAsFault i = true)
      (h : exec i s = .next (raise c s)) : Does i s (raise c s)

/-! ### Each instruction does one of these -/

/-- A register lane that an `if` gives a value only in active lanes of one register with storage changes nowhere
else. -/
theorem lane_of_ite_ne {r reg : Reg} {active : Prop} [Decidable active] {v w : Word}
    (h : (if active ∧ r = reg ∧ reg.backed = true then v else w) ≠ w) :
    r ∈ [reg] ∧ r.backed = true ∧ active := by
  split at h
  · rename_i hc
    obtain ⟨ha, rfl, hb⟩ := hc
    exact ⟨List.mem_singleton.2 rfl, hb, ha⟩
  · exact absurd rfl h

/-- A load in bounds writes registers only; out of bounds it faults in its lowest lane that is. -/
theorem load_does (reg ptr : Reg) (bc : BitVec 2) (s : State) :
    Does (.memoryLoad reg ptr bc) s (forActiveLanes (loadLane reg ptr (bc.toNat + 1)) s) := by
  rcases inBounds_or_lowest_out ptr (bc.toNat + 1) s with hb | ⟨k, hk, hlt, hbelow⟩
  · obtain ⟨hregs, hread⟩ := load_inBounds (reg := reg) hb
    exact .regs ⟨hregs, fun r j h => lane_of_ite_ne (hread r j ▸ h)⟩
  · obtain ⟨t, ht, hregs, hread⟩ := load_outOfBounds (reg := reg) hk hlt hbelow
    rw [ht]
    refine .loadFault ⟨hregs, fun r j h => ?_⟩ ?_ hk hlt
    · obtain ⟨hr, hbk, -, hj⟩ := lane_of_ite_ne (hread r j ▸ h)
      exact ⟨hr, hbk, hj⟩
    · exact (hread ptr k).trans (if_neg fun h => Nat.lt_irrefl k h.1.1)

/-- A lane of a store that goes on wrote memory. -/
theorem storeLane_ok {reg ptr : Reg} {n i : Nat} {u v : State} (h : storeLane reg ptr n i u = .ok v) :
    ∃ m, u.mem.write (u.readReg ptr i) n (u.readReg reg i) = some m ∧ v = u.setMem m := by
  unfold storeLane at h
  split at h
  · rename_i m hm
    exact ⟨m, hm, (Except.ok.inj h).symm⟩
  · cases h

/-- A lane of a store that faults names its access, which passes the end of memory. -/
theorem storeLane_error {reg ptr : Reg} {n i : Nat} {u : State} {c : FaultCause}
    (h : storeLane reg ptr n i u = .error c) :
    c = .memoryOutOfBounds (u.readReg ptr i) n i ∧ u.mem.len < (u.readReg ptr i).toNat + n := by
  unfold storeLane at h
  split at h
  · cases h
  · rename_i hm
    exact ⟨(Except.error.inj h).symm, (Memory.write_eq_none_iff _ _ _ _).1 hm⟩

/-- One lane's write stays inside what the lanes that are active reach. -/
theorem WritesThrough.setMem {ptr : Reg} {n i : Nat} {s u : State} {v : Word} {m : Memory}
    (h : WritesThrough ptr n s u) (hi : s.laneActive i = true)
    (hm : u.mem.write (u.readReg ptr i) n v = some m) : WritesThrough ptr n s (u.setMem m) where
  onlyMem := h.onlyMem.trans' rfl
  len := (Memory.len_write hm).trans h.len
  wf hw := (Memory.write_spec (h.wf hw) hm).2.1
  byte a ha := by
    have hb : (u.readReg ptr i).toNat + n ≤ u.mem.len := by
      by_contra hc
      rw [(Memory.write_eq_none_iff _ _ _ _).2 (Nat.lt_of_not_le hc)] at hm
      cases hm
    rw [Memory.write_of_inBounds hb, Option.some.injEq] at hm
    have hout := ha i hi
    rw [LaneReaches, ← h.onlyMem.readReg] at hout
    rw [State.mem_setMem, ← hm, Memory.byte_setBytes_outside _ _ _ (by rw [length_leBytes]; omega), h.byte a ha]

/-- Every lane a store lets through writes inside what it reaches, and the first that faults ends it. -/
theorem store_does (reg ptr : Reg) (bc : BitVec 2) (s : State) :
    Does (.memoryStore reg ptr bc) s (forActiveLanes (storeLane reg ptr (bc.toNat + 1)) s) := by
  have hactive {i : Nat} {u : State} (hu : WritesThrough ptr (bc.toNat + 1) s u) (hi : i ∈ s.enabledLanes)
      (hm : u.readMask i = true) : s.laneActive i = true :=
    (s.laneActive_iff i).2 ⟨(s.mem_enabledLanes i).1 hi, hu.onlyMem.readMask i ▸ hm⟩
  have keep : ∀ i ∈ s.enabledLanes, ∀ u v, WritesThrough ptr (bc.toNat + 1) s u → u.readMask i = true →
      storeLane reg ptr (bc.toNat + 1) i u = .ok v → WritesThrough ptr (bc.toNat + 1) s v := fun i hi u v hu hm hv => by
    obtain ⟨m, hw, rfl⟩ := storeLane_ok hv
    exact hu.setMem (hactive hu hi hm) hw
  rcases runLanes_cases _ s.enabledLanes keep ⟨OnlyMem.rfl' s, rfl, id, fun _ _ => rfl⟩ with
    h | ⟨i, hi, u, c, hu, hm, hc, h⟩
  · exact .store h
  · obtain ⟨rfl, hlt⟩ := storeLane_error hc
    rw [hu.onlyMem.readReg, hu.len] at hlt
    rw [hu.onlyMem.readReg] at h
    rw [forActiveLanes, h]
    exact .storeFault hu (hactive hu hi hm) hlt

/-- A `copy` writes its one destination. -/
theorem copy_does {i : Instr} {dst : Reg} (hi : destinations i = [dst]) (half : Word → BitVec 16 → Word)
    (value : BitVec 16) (s : State) : Does i s (forActiveLanes (copyLane half dst value) s) := by
  obtain ⟨hregs, hread⟩ := copy_spec half dst value s
  exact .regs ⟨hregs, fun r j h => hi ▸ lane_of_ite_ne (hread r j ▸ h)⟩

/-- An operation without a remainder writes its one destination. -/
theorem arith_does {i : Instr} {o : ArithOperands} {alu : Word → Word → AluResult} {f : Word → Word → Word}
    (hi : destinations i = [o.dst]) (hexec : ∀ s, exec i s = .next (forActiveLanes (arithLane alu o) s))
    (hw : WritesDstOnly i o f) (s : State) : Does i s (forActiveLanes (arithLane alu o) s) := by
  obtain ⟨t, ht, -, hread⟩ := hw s
  rw [hexec, Host.Outcome.next.injEq] at ht
  subst ht
  refine .regs ⟨arith_onlyRegs alu o s, fun r j h => ?_⟩
  obtain ⟨rfl, hb, hj⟩ : r = o.dst ∧ o.dst.backed = true ∧ s.laneActive j = true := by
    by_contra hc
    exact h ((hread r j).trans (if_neg hc))
  exact ⟨hi ▸ List.mem_singleton.2 rfl, hb, hj⟩

/-- `DIV` writes its two destinations. -/
theorem div_does (o : ArithOperands) (s : State) :
    Does (.arithDiv o) s (forActiveLanes (arithLane divResult o) s) := by
  refine .regs ⟨arith_onlyRegs divResult o s, fun r j h => ?_⟩
  by_contra hc
  refine h (div_readReg_other o s ?_)
  simp only [destinations, List.mem_cons, List.not_mem_nil, or_false, not_and, Bool.not_eq_true] at hc
  by_cases hr : r = o.dst ∨ r = o.rem
  · cases hb : r.backed with
    | false => exact .inr (.inl rfl)
    | true => exact .inr (.inr (hc hr hb))
  · exact .inl (not_or.1 hr)

/-- Everything an instruction that answers a next state did. -/
theorem exec_does {i : Instr} {s t : State} (h : exec i s = .next t) : Does i s t := by
  have ht {u : State} (hu : exec i s = .next u) (hd : Does i s u) : Does i s t := by
    rw [hu, Host.Outcome.next.injEq] at h
    exact h ▸ hd
  cases i with
  | vlenset value => exact ht rfl (.vlenset value s)
  | maskset src => exact ht rfl (maskLanes_fields src _ s ▸ .maskset src s _)
  | memoryLoad reg ptr bc => exact ht rfl (load_does reg ptr bc s)
  | memoryStore reg ptr bc => exact ht rfl (store_does reg ptr bc s)
  | copyLower dst value => exact ht rfl (copy_does rfl _ value s)
  | copyUpper dst value => exact ht rfl (copy_does rfl _ value s)
  | arithAdd o => exact ht rfl (arith_does rfl (fun _ => rfl) (arithAdd_writesDstOnly o) s)
  | arithSub o => exact ht rfl (arith_does rfl (fun _ => rfl) (arithSub_writesDstOnly o) s)
  | arithMul o => exact ht rfl (arith_does rfl (fun _ => rfl) (arithMul_writesDstOnly o) s)
  | arithAnd o => exact ht rfl (arith_does rfl (fun _ => rfl) (arithAnd_writesDstOnly o) s)
  | arithXor o => exact ht rfl (arith_does rfl (fun _ => rfl) (arithXor_writesDstOnly o) s)
  | arithDiv o => exact ht rfl (div_does o s)
  | jz flag offset =>
    by_cases hz : ActiveLanesZero flag s
    · exact ht (exec_jz_taken hz offset) (.jz flag offset s)
    · exact ht (exec_jz_notTaken hz offset) (.stay _ s)
  | bz flag saveIp offset =>
    by_cases hz : ActiveLanesZero flag s
    · cases saveIp with
      | false => exact ht ((exec_bz_false flag offset s).trans (exec_jz_taken hz offset)) (.bz flag offset s)
      | true =>
        refine ht (exec_bz_call hz offset) ?_
        rcases call_cases offset s with ⟨h4, hc⟩ | ⟨h4, hl, hc⟩ | ⟨h4, hl, hc⟩ <;> rw [hc]
        · exact .callUnderflow flag offset h4
        · exact .callOut flag offset h4 hl
        · exact .call flag offset h4 hl
    · exact ht (exec_bz_notTaken hz saveIp offset) (.stay _ s)
  | ret =>
    refine ht rfl ?_
    rcases ret_cases s with ⟨hl, hc⟩ | ⟨-, hc⟩ <;> rw [hc]
    · exact .retOut hl
    · exact .ret s _ _
  | inter number => exact ht rfl (.inter number s)
  | _ => exact ht rfl (.illegal rfl rfl)

/-! ### Which element of the state which instruction writes -/

/-- `vlen`: only `vlenset` (10_state.md R33). -/
theorem Does.vlen {i : Instr} {s t : State} (hd : Does i s t) (h : t.vlen ≠ s.vlen) :
    ∃ value, i = .vlenset value := by
  cases hd with
  | vlenset value => exact ⟨value, rfl⟩
  | regs ht | loadFault ht => exact absurd ht.onlyRegs.vlen h
  | store ht | storeFault ht => exact absurd ht.onlyMem.vlen h
  | _ => exact absurd rfl h

/-- The mask: only `maskset` (10_state.md R31). -/
theorem Does.mask {i : Instr} {s t : State} (hd : Does i s t) (h : ¬ SameMask s t) : ∃ src, i = .maskset src := by
  cases hd with
  | maskset src => exact ⟨src, rfl⟩
  | regs ht | loadFault ht => exact absurd ht.onlyRegs.readMask h
  | store ht | storeFault ht => exact absurd ht.onlyMem.readMask h
  | _ => exact absurd (fun _ => rfl) h

/-- `sp`: only `bz` with `save_ip`, and `ret` (10_state.md R38). -/
theorem Does.sp {i : Instr} {s t : State} (hd : Does i s t) (h : t.sp ≠ s.sp) :
    (∃ flag offset, i = .bz flag true offset) ∨ i = .ret := by
  cases hd with
  | call flag offset => exact .inl ⟨flag, offset, rfl⟩
  | ret => exact .inr rfl
  | regs ht | loadFault ht => exact absurd ht.onlyRegs.sp h
  | store ht | storeFault ht => exact absurd ht.onlyMem.sp h
  | _ => exact absurd rfl h

/-- `ip`: only `jz`, `bz` and `ret` (10_state.md R35). -/
theorem Does.ip {i : Instr} {s t : State} (hd : Does i s t) (h : t.ip ≠ s.ip) :
    (∃ flag offset, i = .jz flag offset) ∨ (∃ flag saveIp offset, i = .bz flag saveIp offset) ∨ i = .ret := by
  cases hd with
  | jz flag offset => exact .inl ⟨flag, offset, rfl⟩
  | bz flag offset => exact .inr (.inl ⟨flag, false, offset, rfl⟩)
  | call flag offset => exact .inr (.inl ⟨flag, true, offset, rfl⟩)
  | ret => exact .inr (.inr rfl)
  | regs ht | loadFault ht => exact absurd ht.onlyRegs.ip h
  | store ht | storeFault ht => exact absurd ht.onlyMem.ip h
  | _ => exact absurd rfl h

/-- No instruction changes the length of memory (20_memory.md R52). -/
theorem Does.memLen {i : Instr} {s t : State} (hd : Does i s t) : t.mem.len = s.mem.len := by
  cases hd with
  | regs ht | loadFault ht => exact congrArg Memory.len ht.onlyRegs.mem
  | store ht | storeFault ht => exact ht.len
  | call => exact Memory.len_setBytes _ _ _
  | _ => rfl

/-- The bytes of memory: only a `memory` store and `bz` with `save_ip` (20_memory.md R50). -/
theorem Does.memByte {i : Instr} {s t : State} (hd : Does i s t) {a : Nat} (h : t.mem.byte a ≠ s.mem.byte a) :
    (∃ reg ptr bytesCount, i = .memoryStore reg ptr bytesCount) ∨ ∃ flag offset, i = .bz flag true offset := by
  cases hd with
  | store | storeFault => exact .inl ⟨_, _, _, rfl⟩
  | call flag offset => exact .inr ⟨flag, offset, rfl⟩
  | regs ht | loadFault ht => exact absurd (congrArg (Memory.byte · a) ht.onlyRegs.mem) h
  | _ => exact absurd rfl h

/-- A register lane: only an active lane of a destination with storage (10_state.md R27). -/
theorem Does.lane {i : Instr} {s t : State} (hd : Does i s t) {r : Reg} {j : Nat}
    (h : t.readReg r j ≠ s.readReg r j) : r ∈ destinations i ∧ r.backed = true ∧ s.laneActive j = true := by
  cases hd with
  | regs ht | loadFault ht => exact ht.lanes r j h
  | store ht | storeFault ht => exact absurd (ht.onlyMem.readReg r j) h
  | _ => exact absurd rfl h

/-- No instruction takes the memory out of its canonical form. -/
theorem Does.memWf {i : Instr} {s t : State} (hd : Does i s t) (hw : s.mem.wf = true) : t.mem.wf = true := by
  cases hd with
  | regs ht | loadFault ht => exact (congrArg Memory.wf ht.onlyRegs.mem).trans hw
  | store ht | storeFault ht => exact ht.wf hw
  | call _ _ h4 hl => exact (pushedMem_spec s.ip hw h4 hl).1
  | _ => exact hw

/-- Settles O53: element by element. -/
theorem controlStateHasFewWriters : Obligations.ControlStateHasFewWriters :=
  fun _ _ _ h => ⟨(exec_does h).vlen, (exec_does h).mask, (exec_does h).sp, (exec_does h).ip⟩

/-- Settles O54: the length and the bytes of memory. -/
theorem onlyStoresAndCallsWriteMemory : Obligations.OnlyStoresAndCallsWriteMemory :=
  fun _ _ _ h => ⟨(exec_does h).memLen, fun _ => (exec_does h).memByte⟩

/-- Settles O55: the register lanes. -/
theorem registersChangeOnlyInActiveDestinationLanes : Obligations.RegistersChangeOnlyInActiveDestinationLanes :=
  fun _ _ _ h _ _ => (exec_does h).lane

/-! ### The status -/

/-- The words that execute as a fault, form by form. -/
theorem form_of_executesAsFault {i : Instr} (h : executesAsFault i = true) :
    (∃ form ∈ unknownTagForms, ∃ w, i = form w) ∨ (∃ form ∈ unknownOpForms, ∃ u, i = form u)
      ∨ ∃ form ∈ horizontalForms, ∃ o, i = form o := by
  cases i with
  | illegalTag9 w | illegalTag10 w | illegalTag11 w | illegalTag12 w | illegalTag13 w | illegalTag14 w
  | illegalTag15 w => exact .inl ⟨_, by simp [unknownTagForms], w, rfl⟩
  | illegalArithOp6 u | illegalArithOp7 u => exact .inr (.inl ⟨_, by simp [unknownOpForms], u, rfl⟩)
  | illegalArithHorizontalOp0 o | illegalArithHorizontalOp1 o | illegalArithHorizontalOp2 o
  | illegalArithHorizontalOp3 o | illegalArithHorizontalOp4 o | illegalArithHorizontalOp5 o =>
    exact .inr (.inr ⟨_, by simp [horizontalForms], o, rfl⟩)
  | _ => cases h

/-- Settles O56: by the outcome, and for a word that executes as a fault by its form. -/
theorem eachFaultHasItsOwnRaisers : Obligations.EachFaultHasItsOwnRaisers := by
  intro i s t hexec h
  cases exec_does hexec with
  | inter n => exact .inl ⟨n, rfl, rfl⟩
  | loadFault => exact .inr (.inl ⟨_, _, _, rfl, .inl ⟨_, _, _, rfl⟩⟩)
  | storeFault => exact .inr (.inl ⟨_, _, _, rfl, .inr ⟨_, _, _, rfl⟩⟩)
  | callUnderflow flag offset => exact .inr (.inr (.inl ⟨rfl, flag, offset, rfl⟩))
  | callOut flag offset => exact .inr (.inr (.inr (.inl ⟨_, rfl, .inl ⟨flag, offset, rfl⟩⟩)))
  | retOut => exact .inr (.inr (.inr (.inl ⟨_, rfl, .inr rfl⟩)))
  | illegal hi _ =>
    refine .inr (.inr (.inr (.inr ?_)))
    have hstatus {c : FaultCause} (hc : exec i s = .next (raise c s)) {u : State} (hu : exec i s = .next u) :
        u.status = .faulted c := by
      rw [hc, Host.Outcome.next.injEq] at hu
      exact hu ▸ rfl
    rcases form_of_executesAsFault hi with ⟨form, hmem, w, rfl⟩ | ⟨form, hmem, u, rfl⟩ | ⟨form, hmem, o, rfl⟩
    · obtain ⟨henc, hc⟩ := exec_unknownTagForm hmem w s
      exact .inl ⟨henc.symm ▸ hstatus hc hexec, .inl ⟨form, hmem, w, rfl⟩⟩
    · exact .inl ⟨hstatus (exec_unknownOpForm hmem u s) hexec, .inr ⟨form, hmem, u, rfl⟩⟩
    · exact .inr ⟨hstatus (exec_horizontalForm hmem o s) hexec, form, hmem, o, rfl⟩
  | regs ht => exact absurd ht.onlyRegs.status h
  | store ht => exact absurd ht.onlyMem.status h
  | _ => exact absurd rfl h

/-! ### Vectorized instructions -/

/-- A vectorized instruction is a loop over the active lanes whose body keeps agreement (40_execution_cycle.md
R126). -/
theorem exists_body_of_vectorized {i : Instr} (h : vectorized i = true) :
    ∃ body, (∀ s, exec i s = .next (forActiveLanes body s)) ∧ ∀ A, KeepsAgree A body := by
  cases i with
  | memoryLoad reg ptr bc => exact ⟨_, fun _ => rfl, fun A => loadLane_keepsAgree A reg ptr _⟩
  | memoryStore reg ptr bc => exact ⟨_, fun _ => rfl, fun A => storeLane_keepsAgree A reg ptr _⟩
  | copyLower dst value | copyUpper dst value =>
    exact ⟨_, fun _ => rfl, fun A => copyLane_keepsAgree A _ dst value⟩
  | arithAdd o | arithSub o | arithMul o | arithDiv o | arithAnd o | arithXor o =>
    exact ⟨_, fun _ => rfl, fun A => arithLane_keepsAgree A _ o⟩
  | _ => cases h

/-- Settles O52: the loop passes every lane over. -/
theorem noActiveLaneNoEffect : Obligations.NoActiveLaneNoEffect := by
  intro i s hv hnone
  obtain ⟨body, hexec, -⟩ := exists_body_of_vectorized hv
  rw [hexec, forActiveLanes_of_inactive body hnone]

/-- A vectorized instruction does not execute as a fault. -/
theorem executesAsFault_of_vectorized {i : Instr} (h : vectorized i = true) : executesAsFault i = false := by
  cases i with
  | memoryLoad | memoryStore | copyLower | copyUpper => rfl
  | arithAdd | arithSub | arithMul | arithDiv | arithAnd | arithXor => rfl
  | _ => cases h

/-- A byte that a vectorized instruction changes is one that an active lane's access reaches. -/
theorem Does.byte_of_vectorized {i : Instr} {s t : State} (hd : Does i s t) (hv : vectorized i = true) {a : Nat}
    (h : ∀ ptr n, memoryAccess i = some (ptr, n) → ∀ j, s.laneActive j = true → ¬ LaneReaches ptr n s j a) :
    t.mem.byte a = s.mem.byte a := by
  cases hd with
  | regs ht | loadFault ht => exact congrArg (Memory.byte · a) ht.onlyRegs.mem
  | store ht | storeFault ht => exact ht.byte a (h _ _ rfl)
  | call => cases hv
  | _ => rfl

/-- A status that a vectorized instruction changes is the bounds fault of an active lane's access. -/
theorem Does.status_of_vectorized {i : Instr} {s t : State} (hd : Does i s t) (hv : vectorized i = true)
    (h : t.status ≠ s.status) :
    ∃ ptr n k, memoryAccess i = some (ptr, n) ∧ s.laneActive k = true ∧ s.mem.len < (s.readReg ptr k).toNat + n
      ∧ t.status = .faulted (.memoryOutOfBounds (s.readReg ptr k) n k) := by
  cases hd with
  | loadFault _ _ hk hlt | storeFault _ hk hlt => exact ⟨_, _, _, rfl, hk, hlt, rfl⟩
  | regs ht => exact absurd ht.onlyRegs.status h
  | store ht => exact absurd ht.onlyMem.status h
  | callUnderflow | callOut | retOut | inter => cases hv
  | illegal hi => rw [executesAsFault_of_vectorized hv] at hi; cases hi
  | _ => exact absurd rfl h

/-- Settles O51: the loop keeps two states that agree in the active lanes in agreement, and what one run changes is
what its outcome says. -/
theorem vectorInstructionsIgnoreInactiveLanes : Obligations.VectorInstructionsIgnoreInactiveLanes := by
  intro i hv s u hmask hvlen hip hsp hstatus hmem hregs
  obtain ⟨body, hexec, hbody⟩ := exists_body_of_vectorized hv
  have hagree : Agree s.laneActive s u := ⟨hmask, hvlen, hip, hsp, hstatus, hmem, hregs⟩
  have hlanes : ∀ j ∈ s.enabledLanes, s.readMask j = true → s.laneActive j = true := fun j hj hm =>
    (s.laneActive_iff j).2 ⟨(s.mem_enabledLanes j).1 hj, hm⟩
  obtain ⟨h, hinactive⟩ := runLanes_agree (hbody s.laneActive) s.enabledLanes hagree hlanes
  have hu : u.enabledLanes = s.enabledLanes := by rw [State.enabledLanes, hvlen, State.enabledLanes]
  have hdoes := exec_does (hexec s)
  refine ⟨_, runLanes body s.enabledLanes u, hexec s, ?_, h.reg, h.mask, h.vlen, h.ip, h.sp, h.status, h.mem,
    hinactive, fun a => hdoes.byte_of_vectorized hv, hdoes.status_of_vectorized hv⟩
  rw [hexec, forActiveLanes, hu]

end Sys2Proof.Machine
end

section
/-! PROOFS. The invariant of a run (60_exceptions.md R241, R252): a step of a running core is a fetch that faults, a
word that executes as a fault, or one of the outcomes of `Does`; each keeps the canonical form and records the truth. -/

namespace Sys2Proof.Machine

/-- A running core's status says nothing. -/
theorem statusTrue_of_running {s : State} (h : s.status = .running) : StatusTrue s := by
  rw [StatusTrue, h]
  trivial

/-- A state with the memory the fetch read and the `ip` it left is stopped at the fetched word. -/
theorem stoppedAt_of_fetched {s t : State} {w : Word} (hw : s.mem.read s.ip 4 = some w) (hip : t.ip = s.ip + 4)
    (hmem : t.mem = s.mem) : StoppedAt t w := by
  rw [StoppedAt, hip, hmem, BitVec.add_sub_cancel, hw]

/-- `Execute` of a fetched word that executes as a fault records the truth. -/
theorem statusTrue_of_executesAsFault {s t : State} {w : Word} (hw : s.mem.read s.ip 4 = some w)
    (hfault : executesAsFault (decode w) = true) (h : execute w (s.setIp (s.ip + 4)) = .next t) :
    StatusTrue t := by
  rcases word_of_executesAsFault hfault with hword | ⟨ht, hop, hh⟩
  · rw [execute_unknown hword, Host.Outcome.next.injEq] at h
    subst h
    exact ⟨stoppedAt_of_fetched hw rfl rfl, hword⟩
  · rw [execute_horizontal ht hop hh, Host.Outcome.next.injEq] at h
    subst h
    exact ⟨stoppedAt_of_fetched hw rfl rfl, ht, hop, hh⟩

/-- What any other fetched word does leaves a true status: the core runs on, or the outcome's own fault is true. -/
theorem statusTrue_of_does {s t : State} {w : Word} (hr : s.isRunning = true) (hw : s.mem.read s.ip 4 = some w)
    (hfault : executesAsFault (decode w) = false) (hd : Does (decode w) (s.setIp (s.ip + 4)) t) : StatusTrue t := by
  have hrun : (s.setIp (s.ip + 4)).status = .running := status_of_isRunning hr
  have hstop : StoppedAt (s.setIp (s.ip + 4)) w := stoppedAt_of_fetched hw rfl rfl
  generalize s.setIp (s.ip + 4) = u at hd hrun hstop
  generalize hi : decode w = i at hd hfault
  have hbytes (bc : BitVec 2) : 1 ≤ bc.toNat + 1 ∧ bc.toNat + 1 ≤ 4 := by
    have := bc.isLt
    omega
  cases hd with
  | @loadFault reg ptr bc _ t k ht hptr hk hlt =>
    obtain ⟨hn, hn'⟩ := hbytes bc
    exact ⟨hn, hn', (ht.onlyRegs.laneActive k).trans hk, ht.onlyRegs.mem ▸ hlt, ptr, hptr⟩
  | @storeFault reg ptr bc _ t k ht hk hlt =>
    obtain ⟨hn, hn'⟩ := hbytes bc
    exact ⟨hn, hn', (ht.onlyMem.laneActive k).trans hk, ht.len ▸ hlt, ptr, ht.onlyMem.readReg ptr k⟩
  | callUnderflow flag offset h4 => exact ⟨rfl, h4, w, flag, offset, hstop, hi⟩
  | callOut flag offset h4 hl => exact .inl ⟨rfl, h4, hl, w, flag, offset, hstop, hi⟩
  | retOut hl => exact .inr ⟨rfl, hl, w, hstop, hi⟩
  | inter number => exact ⟨w, hstop, hi⟩
  | illegal hf =>
    rw [hfault] at hf
    cases hf
  | regs ht => exact statusTrue_of_running (ht.onlyRegs.status.trans hrun)
  | store ht => exact statusTrue_of_running (ht.onlyMem.status.trans hrun)
  | _ => exact statusTrue_of_running hrun

/-- Settles O14: a stopped core stays as it is, a fetch out of bounds names `ip`, and an executed word keeps the
canonical form (`Does.memWf`) and leaves a true status. -/
theorem stepKeepsTheInvariant : Obligations.StepKeepsTheInvariant := by
  rintro s t ⟨hwf, hstatus⟩ hstep
  rcases step_cases hstep with ⟨-, rfl⟩ | ⟨-, hl, rfl⟩ | ⟨hr, w, u, hw, hexec, rfl⟩
  · exact ⟨hwf, hstatus⟩
  · exact ⟨hwf, rfl, hl⟩
  · have hexecute := execute_of_exec hexec
    have hwf' : u.mem.wf = true := (exec_does hexec).memWf hwf
    cases hfault : executesAsFault (decode w) with
    | true => exact ⟨hwf', statusTrue_of_executesAsFault hw hfault hexecute⟩
    | false =>
      have hs : (s.setIp (s.ip + 4)).status.RecordsNoWord := recordsNoWord_of_isRunning hr
      rw [execute_eq_exec hfault hs] at hexecute
      exact ⟨hwf', statusTrue_of_does hr hw hfault (exec_does hexecute)⟩

end Sys2Proof.Machine
end
